-- ==== Sys2Proof/Word.lean ====
section
/-! DEFINITION. The word types of the engine (spec/00_scope.md R8, R9). Every value is unsigned (R10). -/

namespace Sys2Proof

/-- A 32-bit word: state, schedule, register and bus width (00_scope.md R8). -/
abbrev Word := BitVec 32

/-- A byte of a message or of the buffer. -/
abbrev Byte := BitVec 8

/-- The 64-bit byte counter (00_scope.md R8 `LEN_BITS`). -/
abbrev Counter := BitVec 64

/-- The eight words `H[0..7]` of a hash state (00_scope.md R8 `STATE_WORDS`). -/
abbrev HashState := Vector Word 8

/-- A 64-byte block, and the buffer that collects one (00_scope.md R8 `BLOCK_BYTES`, `BUF_BYTES`). -/
abbrev Block := Vector Byte 64

/-- An offset into the 256-byte register window (20_memory.md R39). -/
abbrev Offset := Fin 256

end Sys2Proof
end

