-- ==== Sys2Proof/Config.lean ====
section
/-! DEFINITION. The implementation parameters that the machine reads (spec/00_scope.md R8). -/

namespace Sys2Proof.Config

/-- `HAS_MIDSTATE` (00_scope.md R4, R8): this hardware has the midstate commands. Log 9. -/
def hasMidstate : Bool := true

/-- `LEN_MAX`, the largest accepted total length in bytes (00_scope.md R8; 90_conflicts.md C2). -/
def lenMax : Nat := 2 ^ 61 - 1

/-- `WINDOW_BYTES` (00_scope.md R8). -/
def windowBytes : Nat := 256

/-- The only access width, in bytes, that the engine accepts: `BUS_WIDTH` is 32 bits
(00_scope.md R8; 20_memory.md R40). -/
def accessBytes : Nat := 4

/-- `BASE`, the bus address of the window: OPEN, fixed by the platform (00_scope.md R8;
20_memory.md R39). It has no body, so nothing can depend on its value. Log 6. -/
opaque base : Nat

end Sys2Proof.Config
end

