-- ==== Sys2Proof/Syntax.lean ====
section
/-! DEFINITION. The engine's nine commands, one constructor per row of spec/opcode_table.json. -/

namespace Sys2Proof

/-- A command with its operand field (30_encoding.md R60 to R62). -/
inductive Instr where
  /-- UPDATE: append `nb` bytes of `DIN` (41_stream.md R89). The field has three bits and the
  values 5 to 7 are not well formed. -/
  | update (nb : BitVec 3)
  /-- FINALIZE: pad, compress, leave the digest (41_stream.md R95). -/
  | finalize
  /-- REINIT: back to the Created state (41_stream.md R98). -/
  | reinit
  /-- CLRERR: clear the error indication (43_control.md R110). -/
  | clrerr
  /-- LDH: load one word of `H` from `DIN` (42_midstate.md R104). -/
  | ldh (idx : Fin 8)
  /-- LDBUF: load one word of the buffer from `DIN` (42_midstate.md R105). -/
  | ldbuf (idx : Fin 16)
  /-- LDLENLO: load `LEN[31:0]` from `DIN` (42_midstate.md R106). -/
  | ldlenlo
  /-- LDLENHI: load `LEN[63:32]` from `DIN` (42_midstate.md R107). -/
  | ldlenhi
  /-- RESUME: check the counter and become Ready (42_midstate.md R108). -/
  | resume
  deriving DecidableEq, Repr

end Sys2Proof
end

