-- ==== Sys2Proof/WellFormed.lean ====
section
/-! DEFINITION. Which commands have an encoding (spec/30_encoding.md R60). -/

namespace Sys2Proof

/-- The legal operand values of 30_encoding.md R60: `NB` is 0 to 4. Every value of the index
types of LDH and LDBUF is legal. -/
def Instr.wf : Instr → Bool
  | .update nb => decide (nb.toNat ≤ 4)
  | .finalize => true
  | .reinit => true
  | .clrerr => true
  | .ldh _ => true
  | .ldbuf _ => true
  | .ldlenlo => true
  | .ldlenhi => true
  | .resume => true

end Sys2Proof
end

