-- ==== Sys2Proof/Decode.lean ====
section
/-! DEFINITION. Decoding of command words, total on every word, and the encoder
(spec/30_encoding.md R59 to R64). -/

namespace Sys2Proof

/-- `OPC = c[31:24]` (30_encoding.md R59). -/
def opcField (c : Word) : BitVec 8 := c.extractLsb' 24 8

/-- The reserved field `c[23:6]`, which must be 0 (30_encoding.md R59). -/
def reservedField (c : Word) : BitVec 18 := c.extractLsb' 6 18

/-- `OPD = c[5:0]` (30_encoding.md R59). -/
def opdField (c : Word) : BitVec 6 := c.extractLsb' 0 6

/-- Format N: no bit of `OPD` may be set (30_encoding.md R60). -/
def decodeN (i : Instr) (opd : BitVec 6) : Option Instr :=
  if opd = 0 then some i else none

/-- Format B: `NB = OPD[2:0]`, values 0 to 4, `OPD[5:3]` zero (30_encoding.md R60, R63). -/
def decodeB (opd : BitVec 6) : Option Instr :=
  if opd.toNat ≤ 4 then some (.update (opd.extractLsb' 0 3)) else none

/-- Format X3: `IDX = OPD[2:0]`, `OPD[5:3]` zero (30_encoding.md R60). -/
def decodeX3 (opd : BitVec 6) : Option Instr :=
  if h : opd.toNat < 8 then some (.ldh ⟨opd.toNat, h⟩) else none

/-- Format X4: `IDX = OPD[3:0]`, `OPD[5:4]` zero (30_encoding.md R60). -/
def decodeX4 (opd : BitVec 6) : Option Instr :=
  if h : opd.toNat < 16 then some (.ldbuf ⟨opd.toNat, h⟩) else none

/-- A row of the midstate extension decodes only where the extension is present
(60_exceptions.md R114). -/
def onlyWith (present : Bool) (i : Option Instr) : Option Instr :=
  if present then i else none

/-- The opcode map (30_encoding.md R62): the command of an opcode with an operand field, or `none`.
`midstate` is the parameter `HAS_MIDSTATE` (60_exceptions.md R114). -/
def opcodeMap (midstate : Bool) (opc : BitVec 8) (opd : BitVec 6) : Option Instr :=
  match opc.toNat with
  | 0x01 => decodeB opd
  | 0x02 => decodeN .finalize opd
  | 0x03 => decodeN .reinit opd
  | 0x04 => decodeN .clrerr opd
  | 0x10 => onlyWith midstate (decodeX3 opd)
  | 0x11 => onlyWith midstate (decodeX4 opd)
  | 0x12 => onlyWith midstate (decodeN .ldlenlo opd)
  | 0x13 => onlyWith midstate (decodeN .ldlenhi opd)
  | 0x14 => onlyWith midstate (decodeN .resume opd)
  | _ => none

/-- The decoding of a command word (30_encoding.md R63); `none` is an illegal word (R64). -/
def decodeWith (midstate : Bool) (c : Word) : Option Instr :=
  if reservedField c = 0 then opcodeMap midstate (opcField c) (opdField c) else none

/-- This hardware's decoder. -/
def decode (c : Word) : Option Instr := decodeWith Config.hasMidstate c

/-- A command word of opcode `opc` and operand field `opd`, every other bit 0
(30_encoding.md R59). -/
def commandWord (opc : BitVec 8) (opd : BitVec 6) : Word := opc ++ (0 : BitVec 18) ++ opd

/-- The word of a command (30_encoding.md R62, R66). -/
def encode : Instr → Word
  | .update nb => commandWord 0x01 (nb.setWidth 6)
  | .finalize => commandWord 0x02 0
  | .reinit => commandWord 0x03 0
  | .clrerr => commandWord 0x04 0
  | .ldh idx => commandWord 0x10 (BitVec.ofNat 6 idx.val)
  | .ldbuf idx => commandWord 0x11 (BitVec.ofNat 6 idx.val)
  | .ldlenlo => commandWord 0x12 0
  | .ldlenhi => commandWord 0x13 0
  | .resume => commandWord 0x14 0

/-- The command the decoder reads from the low `nbits` bits of `w`; a command is one 32-bit word
(30_encoding.md R59), so a longer number is no command. Log 10. -/
def decodeTableWord (nbits w : Nat) : Option Instr :=
  if w % 2 ^ nbits < 2 ^ 32 then decode (BitVec.ofNat 32 (w % 2 ^ nbits)) else none

end Sys2Proof
end

