-- ==== Sys2Proof/Machine/State.lean ====
section
/-! DEFINITION. The state of the engine (spec/10_state.md R17), the transactions that reach it
(spec/20_memory.md R41, spec/70_reset_and_hazards.md R137) and the state after reset (R129). -/

namespace Sys2Proof.Machine

/-- The error codes (60_exceptions.md R112). Their numbers are `ErrCode.bits`. -/
inductive ErrCode where
  /-- NONE: no error since `ERR` was last clear. -/
  | none
  /-- ILLEGAL_CMD: an illegal command word. -/
  | illegalCmd
  /-- NOT_READY: UPDATE or FINALIZE while `READY = 0`. -/
  | notReady
  /-- STILL_READY: REINIT, a load command or RESUME while `READY = 1`. -/
  | stillReady
  /-- LEN_OVF: the byte count would pass `LEN_MAX`. -/
  | lenOvf
  /-- BAD_ACCESS: a write of a wrong width or alignment, or to a read-only or reserved offset. -/
  | badAccess
  deriving DecidableEq, Repr

/-- What can reach the engine (20_memory.md R41; 70_reset_and_hazards.md R137). Several bus masters
are one merged sequence of these (20_memory.md R56). Log 17: any size, a 32-bit value. -/
inductive Txn where
  /-- `RegRead(off, size)`, `size` in bytes. -/
  | read (off : Offset) (size : Nat)
  /-- `RegWrite(off, size, v)`, `size` in bytes. -/
  | write (off : Offset) (size : Nat) (v : Word)
  /-- The platform's reset of the engine (70_reset_and_hazards.md R129). Log 5. -/
  | reset
  deriving DecidableEq, Repr

/-- The engine never stops: a rejected operation is a next state (60_exceptions.md R113, R119), so no
step raises a fault and the type has no constructor. Log 8. -/
inductive Fault where
  deriving DecidableEq, Repr

/-- Why a step gives no meaning. -/
inductive Refusal where
  /-- Raised by an arm of `exec` whose command has no meaning in the model; no arm raises it. Safe. -/
  | notModelled (mnemonic : String)
  deriving DecidableEq, Repr

end Sys2Proof.Machine

namespace Sys2Proof.Machine

/-- The state: the nine elements of 10_state.md R17, and three fields of the model's own. -/
structure State where
  /-- `H[0..7]`, the running hash state (10_state.md R18). -/
  h : HashState
  /-- `BUF[0..63]`, the partial block (10_state.md R19). -/
  buf : Block
  /-- `BUFLEN`, the number of valid bytes in `BUF` (10_state.md R19). -/
  buflen : BitVec 6
  /-- `LEN`, the bytes accepted by UPDATE (10_state.md R21). -/
  len : Counter
  /-- `READY`: true is Ready, false is Finalized (10_state.md R22). -/
  ready : Bool
  /-- `DVALID`: `H` holds the digest of the last FINALIZE (10_state.md R23). -/
  dvalid : Bool
  /-- `ERR`: an operation was rejected (10_state.md R24). -/
  err : Bool
  /-- `ERRCODE`: the first error since `ERR` was last clear (10_state.md R24). -/
  errcode : ErrCode
  /-- `DIN`, the data-in register (10_state.md R25). -/
  din : Word
  /-- The model's own: the transactions the host has still to issue, oldest first. Log 1. -/
  pending : List Txn
  /-- The model's own: the values that register reads have returned, oldest first. Log 3. -/
  reads : List Word
  /-- The model's own ghost flag: some operation was rejected; nothing clears it
  (60_exceptions.md section 6). Log 4. -/
  everRejected : Bool
  deriving DecidableEq, Repr

/-- The state after reset (70_reset_and_hazards.md R129). The three fields of the model's own start
empty and false (DESIGN CHOICE, logs 1, 3 and 4). -/
def State.reset : State where
  h := iv
  buf := zeroBlock
  buflen := 0
  len := 0
  ready := true
  dvalid := false
  err := false
  errcode := .none
  din := 0
  pending := []
  reads := []
  everRejected := false

end Sys2Proof.Machine
end

