-- ==== Sys2Proof/Machine/Flags.lean ====
section
/-! DEFINITION. The `STATUS` word (spec/10_state.md R31), the numbers of the error codes
(spec/60_exceptions.md R112) and the length check (R116). -/

namespace Sys2Proof.Machine

/-- The value of `ERRCODE` for each cause (60_exceptions.md R112). -/
def ErrCode.bits : ErrCode → BitVec 4
  | .none => 0
  | .illegalCmd => 1
  | .notReady => 2
  | .stillReady => 3
  | .lenOvf => 4
  | .badAccess => 5

/-- The `STATUS` register, most significant field first (10_state.md R31): reserved 31:22,
`BUFLEN` 21:16, reserved 15:12, `ERRCODE` 11:8, reserved 7:3, `ERR` 2, `DVALID` 1, `READY` 0. -/
def statusWord (s : State) : Word :=
  (0 : BitVec 10) ++ s.buflen ++ (0 : BitVec 4) ++ s.errcode.bits ++ (0 : BitVec 5) ++
    BitVec.ofBool s.err ++ BitVec.ofBool s.dvalid ++ BitVec.ofBool s.ready

/-- The count `l`, with `n` bytes more, passes `LEN_MAX`; the sum does not wrap
(41_stream.md R89, R90; 60_exceptions.md R116). -/
def lenExceeds (l : Counter) (n : Nat) : Bool := decide (l.toNat + n > Config.lenMax)

end Sys2Proof.Machine
end

