-- ==== Sys2Proof/Machine/Compressor.lean ====
section
/-! DEFINITION. The Compressor: the 64-round compression function (spec/40_compressor.md R68 to R86).
It is a pure function and cannot fail (R68). -/

namespace Sys2Proof.Machine

/-- `ROTR^n(x)` for `0 < n < 32` (00_scope.md R12). -/
def rotr (n : Nat) (x : Word) : Word := (x >>> n) ||| (x <<< (32 - n))

/-- `σ0` (40_compressor.md R70). -/
def smallSigma0 (x : Word) : Word := rotr 7 x ^^^ rotr 18 x ^^^ (x >>> 3)

/-- `σ1` (40_compressor.md R71). -/
def smallSigma1 (x : Word) : Word := rotr 17 x ^^^ rotr 19 x ^^^ (x >>> 10)

/-- `Σ0` (40_compressor.md R72). -/
def bigSigma0 (x : Word) : Word := rotr 2 x ^^^ rotr 13 x ^^^ rotr 22 x

/-- `Σ1` (40_compressor.md R73). -/
def bigSigma1 (x : Word) : Word := rotr 6 x ^^^ rotr 11 x ^^^ rotr 25 x

/-- `Ch` (40_compressor.md R74). -/
def ch (x y z : Word) : Word := (x &&& y) ^^^ (~~~x &&& z)

/-- `Maj` (40_compressor.md R75). -/
def maj (x y z : Word) : Word := (x &&& y) ^^^ (x &&& z) ^^^ (y &&& z)

/-- `BE32(b0, b1, b2, b3)`, `b0` in bits 31:24 (00_scope.md R13). -/
def be32 (b0 b1 b2 b3 : Byte) : Word := b0 ++ b1 ++ b2 ++ b3

/-- Step 1, the block parse: `w[0..15]` (40_compressor.md R78). -/
def parseBlock (b : Block) : Vector Word 16 :=
  Vector.ofFn fun t => be32 b[4 * t.val] b[4 * t.val + 1] b[4 * t.val + 2] b[4 * t.val + 3]

/-- The word that follows in the schedule, from the words 2, 7, 15 and 16 places before it
(40_compressor.md R79). -/
def nextScheduleWord (w2 w7 w15 w16 : Word) : Word :=
  smallSigma1 w2 + w7 + smallSigma0 w15 + w16

/-- One step of the message expansion: writes `w[t + 16]` (40_compressor.md R79). -/
def expandStep (w : Vector Word 64) (t : Fin 48) : Vector Word 64 :=
  w.set (t.val + 16) (nextScheduleWord w[t.val + 14] w[t.val + 9] w[t.val + 1] w[t.val])

/-- The message schedule `w[0..63]`: the parsed words, then the expansion in increasing order
(40_compressor.md R78, R79). -/
def schedule (b : Block) : Vector Word 64 :=
  (List.finRange 48).foldl expandStep (parseBlock b ++ Vector.replicate 48 (0 : Word))

/-- The working variables `a..h` (40_compressor.md R80). -/
structure Working where
  a : Word
  b : Word
  c : Word
  d : Word
  e : Word
  f : Word
  g : Word
  h : Word
  deriving DecidableEq, Repr

/-- Step 3 (40_compressor.md R80). -/
def initWorking (s : HashState) : Working := ⟨s[0], s[1], s[2], s[3], s[4], s[5], s[6], s[7]⟩

/-- Step 4, one round with the constant `k` and the schedule word `w` (40_compressor.md R81). -/
def round (k w : Word) (v : Working) : Working :=
  let t1 := v.h + bigSigma1 v.e + ch v.e v.f v.g + k + w
  let t2 := bigSigma0 v.a + maj v.a v.b v.c
  ⟨t1 + t2, v.a, v.b, v.c, v.d + t1, v.e, v.f, v.g⟩

/-- The 64 rounds, in the order 0 to 63 (40_compressor.md R82). -/
def rounds (w : Vector Word 64) (v : Working) : Working :=
  (List.finRange 64).foldl (fun v t => round (roundConstant t) w[t] v) v

/-- Step 5: the working variables are added to the input state (40_compressor.md R83). -/
def addWorking (s : HashState) (v : Working) : HashState :=
  #v[s[0] + v.a, s[1] + v.b, s[2] + v.c, s[3] + v.d, s[4] + v.e, s[5] + v.f, s[6] + v.g, s[7] + v.h]

/-- `compress(S, B)` (40_compressor.md R84). Irreducible, so that no unification runs the 64 rounds;
`unfold compress` and the kernel still see its body. -/
@[irreducible] def compress (s : HashState) (b : Block) : HashState :=
  addWorking s (rounds (schedule b) (initWorking s))

/-- The internal state of one compression in a model that steps round by round
(40_compressor.md R86): `(t, a..h, w[0..63], S)`. It is no part of `State`: a command is atomic
(10_state.md R28, R37). -/
structure Compression where
  /-- The round index, 0 to 64. -/
  t : Nat
  v : Working
  w : Vector Word 64
  s : HashState
  deriving DecidableEq, Repr

/-- The start of a compression (40_compressor.md R86). -/
def Compression.start (s : HashState) (b : Block) : Compression := ⟨0, initWorking s, schedule b, s⟩

/-- One round of a compression; at `t = 64` it has ended (40_compressor.md R86). -/
def Compression.step (c : Compression) : Compression :=
  if h : c.t < 64 then { c with t := c.t + 1, v := round (roundConstant ⟨c.t, h⟩) c.w[c.t] c.v } else c

/-- The result is exposed only at `t = 64` (40_compressor.md R86). -/
def Compression.result (c : Compression) : Option HashState :=
  if c.t = 64 then some (addWorking c.s c.v) else none

/-- `n` rounds of a compression. -/
def Compression.run : Nat → Compression → Compression
  | 0, c => c
  | n + 1, c => Compression.run n c.step

/-- The schedule window an implementation may hold in place of `w[0..63]`: the next 16 words, moved
on by one word (40_compressor.md R85). -/
def shiftWindow (w : Vector Word 16) : Vector Word 16 :=
  Vector.ofFn fun j : Fin 16 =>
    if h : j.val + 1 < 16 then w[j.val + 1] else nextScheduleWord w[14] w[9] w[1] w[0]

/-- One round of an implementation that holds a 16-word window (40_compressor.md R85). -/
def windowRound (p : Vector Word 16 × Working) (t : Fin 64) : Vector Word 16 × Working :=
  (shiftWindow p.1, round (roundConstant t) p.1[0] p.2)

/-- The compression of an implementation that holds a 16-word window (40_compressor.md R85). -/
def compressWindowed (s : HashState) (b : Block) : HashState :=
  addWorking s ((List.finRange 64).foldl windowRound (parseBlock b, initWorking s)).2

end Sys2Proof.Machine
end

