-- ==== Sys2Proof/Machine/Operands.lean ====
section
/-! DEFINITION. Operand forms: the bytes of `DIN`, the words of the buffer, the halves of `LEN`
(spec/20_memory.md R46, R47, spec/10_state.md R20, R32). All byte order is big-endian. -/

namespace Sys2Proof.Machine

/-- The bytes of a word, bits 31:24 first (20_memory.md R46, R47). -/
def wordBytes (w : Word) : List Byte :=
  [w.extractLsb' 24 8, w.extractLsb' 16 8, w.extractLsb' 8 8, w.extractLsb' 0 8]

/-- `BE64(L)` (00_scope.md R13). -/
def be64Bytes (l : BitVec 64) : List Byte :=
  wordBytes (l.extractLsb' 32 32) ++ wordBytes (l.extractLsb' 0 32)

/-- The bytes UPDATE takes from `DIN`: the `nb` most significant ones, in order
(41_stream.md R89). -/
def updateBytes (nb : BitVec 3) (din : Word) : List Byte := (wordBytes din).take nb.toNat

/-- `BUFW[j]` (10_state.md R20). -/
def bufWord (b : Block) (j : Fin 16) : Word :=
  be32 b[4 * j.val] b[4 * j.val + 1] b[4 * j.val + 2] b[4 * j.val + 3]

/-- `BUFW[j] <- w`: `BUF[4j + k] <- w[31 - 8k : 24 - 8k]` (42_midstate.md R105). -/
def setBufWord (b : Block) (j : Fin 16) (w : Word) : Block :=
  (((b.set (4 * j.val) (w.extractLsb' 24 8)).set (4 * j.val + 1) (w.extractLsb' 16 8)).set
    (4 * j.val + 2) (w.extractLsb' 8 8)).set (4 * j.val + 3) (w.extractLsb' 0 8)

/-- The buffer with every byte at or past `n` zeroed (42_midstate.md R108). -/
def zeroFrom (n : Nat) (b : Block) : Block :=
  Vector.ofFn fun j : Fin 64 => if j.val < n then b[j] else 0

/-- `LEN[31:0]` (10_state.md R32). -/
def lenLo (l : Counter) : Word := l.extractLsb' 0 32

/-- `LEN[63:32]` (10_state.md R32). -/
def lenHi (l : Counter) : Word := l.extractLsb' 32 32

/-- `LEN[31:0] <- w`, `LEN[63:32]` unchanged (42_midstate.md R106). -/
def setLenLo (l : Counter) (w : Word) : Counter := lenHi l ++ w

/-- `LEN[63:32] <- w`, `LEN[31:0]` unchanged (42_midstate.md R107). -/
def setLenHi (l : Counter) (w : Word) : Counter := w ++ lenLo l

end Sys2Proof.Machine
end

