-- ==== Sys2Proof/Machine/Ops.lean ====
section
/-! DEFINITION. The shared operations: raising and clearing an error (spec/60_exceptions.md R113,
R118, R120), absorbing bytes (spec/41_stream.md R88), reset (spec/70_reset_and_hazards.md R129). -/

namespace Sys2Proof.Machine

/-- `raise Error(code)` (60_exceptions.md R113): the engine's only exception. It keeps the first code
since `ERR` was clear, sets `ERR` and changes no other element of the engine. The ghost flag records
that it ran (60_exceptions.md section 6). -/
def raiseError (code : ErrCode) (s : State) : State :=
  { s with errcode := if s.err then s.errcode else code, err := true, everRejected := true }

/-- The way out of an error (60_exceptions.md R120): `ERR` and `ERRCODE` are cleared. -/
def clearError (s : State) : State := { s with err := false, errcode := .none }

/-- Runs an operation behind its checks, in order: the first check that fails names the error and
nothing else happens (60_exceptions.md R113, R118). -/
def guarded : List (Bool × ErrCode) → (State → State) → State → Host.Outcome State Fault Refusal
  | [], effect, s => .next (effect s)
  | (failed, code) :: checks, effect, s =>
    if failed then .next (raiseError code s) else guarded checks effect s

/-- `absorb(x)` (41_stream.md R88): appends one byte and compresses a completed block at once. -/
def absorb (x : Byte) (s : State) : State :=
  let filled := s.buf.set s.buflen.toNat x
  if s.buflen.toNat + 1 = 64 then { s with h := compress s.h filled, buf := zeroBlock, buflen := 0 }
  else { s with buf := filled, buflen := s.buflen + 1 }

/-- `absorb` on each byte, in order (41_stream.md R88). -/
def absorbAll (xs : List Byte) (s : State) : State := xs.foldl (fun s x => absorb x s) s

/-- `while BUFLEN != 56: absorb(0x00)` (41_stream.md R95), at most `fuel` times; 64 are enough,
since `BUFLEN` takes 64 values. Log 13. -/
def zeroFill : Nat → State → State
  | 0, s => s
  | fuel + 1, s => if s.buflen = 56 then s else zeroFill fuel (absorb 0x00 s)

/-- The padding of FINALIZE (41_stream.md R93 to R95): 0x80, zeros up to 56 mod 64, the bit
length. -/
def absorbPadding (s : State) : State :=
  absorbAll (be64Bytes (s.len <<< 3)) (zeroFill 64 (absorb 0x80 s))

/-- The platform's reset (70_reset_and_hazards.md R129): every element of the engine takes its reset
value; the fields of the model's own stay (log 5). -/
def platformReset (s : State) : State :=
  { State.reset with pending := s.pending, reads := s.reads, everRejected := s.everRejected }

end Sys2Proof.Machine
end

