-- ==== Sys2Proof/Machine/Control.lean ====
section
/-! DEFINITION. The control command CLRERR (spec/43_control.md). -/

namespace Sys2Proof.Machine

/-- CLRERR (43_control.md R110): accepted in every state. -/
def execClrerr (s : State) : Host.Outcome State Fault Refusal := guarded [] clearError s

end Sys2Proof.Machine
end

