-- ==== Sys2Proof/Machine/Midstate.lean ====
section
/-! DEFINITION. The midstate commands LDH, LDBUF, LDLENLO, LDLENHI and RESUME
(spec/42_midstate.md). Each requires `READY = 0` (R103). -/

namespace Sys2Proof.Machine

/-- LDH (42_midstate.md R104). -/
def execLdh (idx : Fin 8) (s : State) : Host.Outcome State Fault Refusal :=
  guarded [(s.ready, .stillReady)] (fun s => { s with h := s.h.set idx s.din, dvalid := false }) s

/-- LDBUF (42_midstate.md R105). -/
def execLdbuf (idx : Fin 16) (s : State) : Host.Outcome State Fault Refusal :=
  guarded [(s.ready, .stillReady)] (fun s => { s with buf := setBufWord s.buf idx s.din, dvalid := false }) s

/-- LDLENLO (42_midstate.md R106). -/
def execLdlenlo (s : State) : Host.Outcome State Fault Refusal :=
  guarded [(s.ready, .stillReady)] (fun s => { s with len := setLenLo s.len s.din, dvalid := false }) s

/-- LDLENHI (42_midstate.md R107). -/
def execLdlenhi (s : State) : Host.Outcome State Fault Refusal :=
  guarded [(s.ready, .stillReady)] (fun s => { s with len := setLenHi s.len s.din, dvalid := false }) s

/-- RESUME (42_midstate.md R108). -/
def execResume (s : State) : Host.Outcome State Fault Refusal :=
  guarded [(s.ready, .stillReady), (lenExceeds s.len 0, .lenOvf)]
    (fun s => { s with
      buflen := s.len.setWidth 6, buf := zeroFrom (s.len.toNat % 64) s.buf, ready := true, dvalid := false }) s

end Sys2Proof.Machine
end

