-- ==== Sys2Proof/Machine/Stream.lean ====
section
/-! DEFINITION. The streaming commands UPDATE, FINALIZE and REINIT (spec/41_stream.md). -/

namespace Sys2Proof.Machine

/-- UPDATE (41_stream.md R89, R90). A count above 4 has no encoding (30_encoding.md R63); the first
check answers for such a term as the engine answers for its word. Log 14. -/
def execUpdate (nb : BitVec 3) (s : State) : Host.Outcome State Fault Refusal :=
  guarded [(decide (nb.toNat > 4), .illegalCmd), (!s.ready, .notReady), (lenExceeds s.len nb.toNat, .lenOvf)]
    (fun s => { absorbAll (updateBytes nb s.din) s with len := s.len + nb.setWidth 64 }) s

/-- FINALIZE (41_stream.md R95). -/
def execFinalize (s : State) : Host.Outcome State Fault Refusal :=
  guarded [(!s.ready, .notReady)]
    (fun s => { absorbPadding s with ready := false, dvalid := true }) s

/-- REINIT (41_stream.md R98). -/
def execReinit (s : State) : Host.Outcome State Fault Refusal :=
  guarded [(s.ready, .stillReady)]
    (fun s => { s with h := iv, buf := zeroBlock, buflen := 0, len := 0, ready := true, dvalid := false }) s

end Sys2Proof.Machine
end

