-- ==== Sys2Proof/Machine/Dispatch.lean ====
section
/-! DEFINITION. The meaning of each command: one arm per constructor of `Instr`. -/

namespace Sys2Proof.Machine

def exec (i : Instr) (s : State) : Host.Outcome State Fault Refusal :=
  match i with
  | .update nb => Sys2Proof.Machine.execUpdate nb s
  | .finalize => Sys2Proof.Machine.execFinalize s
  | .reinit => Sys2Proof.Machine.execReinit s
  | .clrerr => Sys2Proof.Machine.execClrerr s
  | .ldh idx => Sys2Proof.Machine.execLdh idx s
  | .ldbuf idx => Sys2Proof.Machine.execLdbuf idx s
  | .ldlenlo => Sys2Proof.Machine.execLdlenlo s
  | .ldlenhi => Sys2Proof.Machine.execLdlenhi s
  | .resume => Sys2Proof.Machine.execResume s

end Sys2Proof.Machine
end

