-- ==== Sys2Proof/Machine/Bus.lean ====
section
/-! DEFINITION. The register window and the host's transactions (spec/20_memory.md,
spec/10_state.md R30 to R36, spec/30_encoding.md R63). -/

namespace Sys2Proof.Machine

/-- The registers of the window (10_state.md R30). -/
inductive Reg where
  | cmd
  | din
  | status
  | lenLo
  | lenHi
  | h (i : Fin 8)
  | buf (j : Fin 16)
  | digest (i : Fin 8)
  deriving DecidableEq, Repr

/-- The offset of a register (10_state.md R30). -/
def Reg.offset : Reg → Nat
  | .cmd => 0x000
  | .din => 0x004
  | .status => 0x008
  | .lenLo => 0x00C
  | .lenHi => 0x010
  | .h i => 0x020 + 4 * i.val
  | .buf j => 0x040 + 4 * j.val
  | .digest i => 0x080 + 4 * i.val

/-- The register at an offset that is a multiple of 4; `none` is a reserved offset
(10_state.md R30). -/
def Reg.at? (off : Offset) : Option Reg :=
  let n := off.val
  if n = 0x000 then some .cmd
  else if n = 0x004 then some .din
  else if n = 0x008 then some .status
  else if n = 0x00C then some .lenLo
  else if n = 0x010 then some .lenHi
  else if hh : 0x020 ≤ n ∧ n < 0x040 then some (.h ⟨(n - 0x020) / 4, by omega⟩)
  else if hb : 0x040 ≤ n ∧ n < 0x080 then some (.buf ⟨(n - 0x040) / 4, by omega⟩)
  else if hd : 0x080 ≤ n ∧ n < 0x0A0 then some (.digest ⟨(n - 0x080) / 4, by omega⟩)
  else none

/-- What a register reads as (20_memory.md R42; 10_state.md R31 to R36). -/
def Reg.read (s : State) : Reg → Word
  | .cmd => 0
  | .din => s.din
  | .status => statusWord s
  | .lenLo => Sys2Proof.Machine.lenLo s.len
  | .lenHi => Sys2Proof.Machine.lenHi s.len
  | .h i => s.h[i]
  | .buf j => bufWord s.buf j
  | .digest i => if s.dvalid then s.h[i] else 0

/-- The form of an access the engine accepts: 32 bits wide and aligned (20_memory.md R40, R49). -/
def wellFormedAccess (off : Offset) (size : Nat) : Bool :=
  decide (size = Config.accessBytes) && decide (off.val % 4 = 0)

/-- `RegRead(off, size)` (20_memory.md R42, R44, R49). A read is a function of the state and changes
nothing (R45). -/
def regRead (off : Offset) (size : Nat) (s : State) : Word :=
  if wellFormedAccess off size then
    match Reg.at? off with
    | some r => r.read s
    | none => 0
  else 0

/-- `execute_command(c)` (30_encoding.md R63): an illegal word is rejected before any check of the
state (60_exceptions.md R118). -/
def executeCommand (c : Word) (s : State) : Host.Outcome State Fault Refusal :=
  match decode c with
  | some i => exec i s
  | none => .next (raiseError .illegalCmd s)

/-- A write to a register: only `CMD` and `DIN` take one (20_memory.md R43; 10_state.md R26). -/
def writeReg (r : Option Reg) (v : Word) (s : State) : Host.Outcome State Fault Refusal :=
  match r with
  | some .cmd => executeCommand v s
  | some .din => .next { s with din := v }
  | _ => .next (raiseError .badAccess s)

/-- `RegWrite(off, size, v)` (20_memory.md R43; 60_exceptions.md R117). -/
def regWrite (off : Offset) (size : Nat) (v : Word) (s : State) : Host.Outcome State Fault Refusal :=
  if wellFormedAccess off size then writeReg (Reg.at? off) v s
  else .next (raiseError .badAccess s)

/-- One transaction, complete with all its effects (20_memory.md R41). The value of a read is noted
(log 3). -/
def runTxn (t : Txn) (s : State) : Host.Outcome State Fault Refusal :=
  match t with
  | .read off size => .next { s with reads := s.reads ++ [regRead off size s] }
  | .write off size v => regWrite off size v s
  | .reset => .next (platformReset s)

/-- A sequence of transactions, one at a time in the order received (20_memory.md R41, R53). -/
def runTxns : List Txn → State → Host.Outcome State Fault Refusal
  | [], s => .next s
  | t :: ts, s =>
    match runTxn t s with
    | .next s' => runTxns ts s'
    | .fault r => .fault r
    | .refused r => .refused r

/-- An access on the platform's bus, at a bus address. -/
inductive BusAccess where
  | read (addr : Nat) (size : Nat)
  | write (addr : Nat) (size : Nat) (v : Word)
  deriving DecidableEq, Repr

/-- The offset an address selects, where the window decodes it: `off = address - BASE`,
`0 <= off <= 0x0FF` (20_memory.md R39). -/
def offsetOf (base addr : Nat) : Option Offset :=
  if h : base ≤ addr ∧ addr < base + 256 then some ⟨addr - base, by omega⟩ else none

/-- The transaction that a bus access is for an engine at `base`; `none` where the engine does not
decode the address (20_memory.md R39). Log 6. -/
def BusAccess.txn? (base : Nat) : BusAccess → Option Txn
  | .read addr size => (offsetOf base addr).map fun off => .read off size
  | .write addr size v => (offsetOf base addr).map fun off => .write off size v

/-- The host issues a bus access: a transaction of this engine joins the end of the queue, and an
access outside the window does not reach it (20_memory.md R39). Logs 1 and 6. -/
def State.receive (s : State) (a : BusAccess) : State :=
  match a.txn? Config.base with
  | some t => { s with pending := s.pending ++ [t] }
  | none => s

end Sys2Proof.Machine
end

