-- ==== Sys2Proof/Machine/Step.lean ====
section
/-! DEFINITION. One step of the machine: the next transaction of the host (spec/20_memory.md R41,
R53). -/

namespace Sys2Proof.Machine

/-- The next transaction runs; with none to come the engine stays as it is
(70_reset_and_hazards.md R138; 20_memory.md R51). Logs 1 and 2. -/
def step (s : State) : Host.Outcome State Fault Refusal :=
  match s.pending with
  | [] => .next s
  | t :: rest => runTxn t { s with pending := rest }

/-- The write to `CMD` of the command word `w` is the host's next transaction. Log 1. -/
def State.withFetchWord (s : State) (nbits w : Nat) : State :=
  { s with pending := .write 0x000 4 (BitVec.ofNat 32 (w % 2 ^ nbits)) :: s.pending }

end Sys2Proof.Machine
end

