-- ==== Sys2Proof/Machine/HostProgram.lean ====
section
/-! DEFINITION. The host's notation: the operations and pseudo-operations of the assembly language as
transactions (spec/30_encoding.md R66, R67), and the serialized midstate (spec/42_midstate.md R101,
R102). The engine never sees it; no step of the machine uses this file. -/

namespace Sys2Proof.Machine

/-- `WR off, v` (30_encoding.md R66). -/
def wr (off : Offset) (v : Word) : Txn := .write off 4 v

/-- `RD off` (30_encoding.md R66). -/
def rd (off : Offset) : Txn := .read off 4

/-- A command mnemonic: one write of its word to `CMD` (30_encoding.md R66). -/
def cmd (i : Instr) : Txn := wr 0x000 (encode i)

/-- `WDIN v` (30_encoding.md R67). -/
def wdin (v : Word) : Txn := wr 0x004 v

/-- `PUSH b0, ...`: the bytes in groups of four; the last group is filled up with 0x00
(30_encoding.md R67). -/
def push : List Byte → List Txn
  | [] => []
  | [b0] => [wdin (be32 b0 0 0 0), cmd (.update 1)]
  | [b0, b1] => [wdin (be32 b0 b1 0 0), cmd (.update 2)]
  | [b0, b1, b2] => [wdin (be32 b0 b1 b2 0), cmd (.update 3)]
  | b0 :: b1 :: b2 :: b3 :: rest => wdin (be32 b0 b1 b2 b3) :: cmd (.update 4) :: push rest

/-- The ASCII bytes of a text (00_scope.md R15). Log 15. -/
def asciiBytes (text : String) : List Byte := text.toList.map fun c => BitVec.ofNat 8 c.toNat

/-- The offset of word `i` of a run of registers. -/
def wordOffset (first : Nat) (i : Nat) : Offset := Fin.ofNat 256 (first + 4 * i)

/-- Reads of `n` registers from `first` on. -/
def readRun (first n : Nat) : List Txn := (List.range n).map fun i => rd (wordOffset first i)

/-- `RDDIGEST` (30_encoding.md R67). -/
def rdDigest : List Txn := readRun 0x080 8

/-- `SAVE` (30_encoding.md R67; 42_midstate.md R101). -/
def save : List Txn := [rd 0x008, rd 0x00C, rd 0x010] ++ readRun 0x020 8 ++ readRun 0x040 16

/-- The loads of `RESTORE` for the words of `H`. -/
def restoreH (h : HashState) : List Txn :=
  (List.finRange 8).flatMap fun i => [wdin h[i], cmd (.ldh i)]

/-- The loads of `RESTORE` for the words of the buffer. -/
def restoreBuf (w : Vector Word 16) : List Txn :=
  (List.finRange 16).flatMap fun j => [wdin w[j], cmd (.ldbuf j)]

/-- `RESTORE h_0..h_7, w_0..w_15, lo, hi` (30_encoding.md R67; 42_midstate.md R109). -/
def restore (h : HashState) (w : Vector Word 16) (lo hi : Word) : List Txn :=
  restoreH h ++ restoreBuf w ++ [wdin lo, cmd .ldlenlo, wdin hi, cmd .ldlenhi, cmd .resume]

/-- The operations of the assembly language (30_encoding.md R66, R67). -/
inductive AsmOp where
  | wr (off : Offset) (v : Word)
  | rd (off : Offset)
  | command (i : Instr)
  | wdin (v : Word)
  | pushw (v : Word)
  | push (bytes : List Byte)
  | pushs (text : String)
  | rddigest
  | hash (bytes : List Byte)
  | save
  | restore (h : HashState) (w : Vector Word 16) (lo hi : Word)
  deriving DecidableEq, Repr

/-- The transactions of an operation (30_encoding.md R66, R67). `HASH` is the source's single-shot
digest (41_stream.md R99). -/
def AsmOp.expand : AsmOp → List Txn
  | .wr off v => [Sys2Proof.Machine.wr off v]
  | .rd off => [Sys2Proof.Machine.rd off]
  | .command i => [cmd i]
  | .wdin v => [Sys2Proof.Machine.wdin v]
  | .pushw v => [Sys2Proof.Machine.wdin v, cmd (.update 4)]
  | .push bytes => Sys2Proof.Machine.push bytes
  | .pushs text => Sys2Proof.Machine.push (asciiBytes text)
  | .rddigest => rdDigest
  | .hash bytes => Sys2Proof.Machine.push bytes ++ [cmd .finalize] ++ rdDigest
  | .save => Sys2Proof.Machine.save
  | .restore h w lo hi => Sys2Proof.Machine.restore h w lo hi

/-- The transactions of a program. -/
def assemble (ops : List AsmOp) : List Txn := ops.flatMap AsmOp.expand

/-- The midstate as the host reads it: `(H, BUFW, BUFLEN, LEN)` (42_midstate.md R101). -/
structure MidstateRead where
  h : HashState
  bufw : Vector Word 16
  buflen : BitVec 6
  len : Counter
  deriving DecidableEq, Repr

/-- The read-back, each part through its registers (42_midstate.md R101). -/
def readMidstate (s : State) : MidstateRead where
  h := Vector.ofFn fun i : Fin 8 => regRead (wordOffset 0x020 i.val) 4 s
  bufw := Vector.ofFn fun j : Fin 16 => regRead (wordOffset 0x040 j.val) 4 s
  buflen := (regRead 0x008 4 s).extractLsb' 16 6
  len := regRead 0x010 4 s ++ regRead 0x00C 4 s

/-- The transactions that restore a midstate (42_midstate.md R109). -/
def MidstateRead.restore (m : MidstateRead) : List Txn :=
  Sys2Proof.Machine.restore m.h m.bufw (lenLo m.len) (lenHi m.len)

/-- The portable serialized midstate, 105 bytes (42_midstate.md R102): `H`, `BUF`, `BUFLEN`,
`BE64(LEN)`. -/
def MidstateRead.serialize (m : MidstateRead) : List Byte :=
  m.h.toList.flatMap wordBytes ++ m.bufw.toList.flatMap wordBytes ++ [m.buflen.setWidth 8] ++ be64Bytes m.len

/-- The word at byte `k` of a byte string, most significant byte first. -/
def wordAt (bs : List Byte) (k : Nat) : Word :=
  be32 (bs.getD k 0) (bs.getD (k + 1) 0) (bs.getD (k + 2) 0) (bs.getD (k + 3) 0)

/-- The midstate taken apart again by the host (42_midstate.md R102); `none` where the string has not
105 bytes or byte 96 is no count of 0 to 63. Log 19. -/
def MidstateRead.deserialize (bs : List Byte) : Option MidstateRead :=
  if bs.length = 105 ∧ (bs.getD 96 0).toNat < 64 then
    some {
      h := Vector.ofFn fun i : Fin 8 => wordAt bs (4 * i.val)
      bufw := Vector.ofFn fun j : Fin 16 => wordAt bs (32 + 4 * j.val)
      buflen := (bs.getD 96 0).setWidth 6
      len := wordAt bs 97 ++ wordAt bs 101 }
  else none

end Sys2Proof.Machine
end

