-- ==== Sys2Proof/Machine/Message.lean ====
section
/-! DEFINITION. The hash of a whole message, as the spec derives it from the commands: the padding
(spec/41_stream.md R93), the blocks of the padded message (R97) and the digest's bytes
(spec/10_state.md R35). No step of the machine uses this file; claims are stated with it. -/

namespace Sys2Proof.Machine

/-- The zero bytes of the padding of an `n`-byte message: `z = (55 - (n mod 64)) mod 64`
(41_stream.md R93). -/
def padZeros (n : Nat) : Nat := (64 + 55 - n % 64) % 64

/-- `pad(L)` (41_stream.md R93). -/
def pad (n : Nat) : List Byte :=
  [(0x80 : Byte)] ++ List.replicate (padZeros n) (0x00 : Byte) ++ be64Bytes (BitVec.ofNat 64 (n * 8))

/-- Block `k` of a byte sequence; bytes past its end are 0x00. -/
def blockAt (m : List Byte) (k : Nat) : Block := Vector.ofFn fun i : Fin 64 => m.getD (64 * k + i.val) 0

/-- `compress` applied in order to the first `n` blocks of `m`, starting from `s`
(41_stream.md R97). -/
def hashBlocks (s : HashState) (m : List Byte) (n : Nat) : HashState :=
  (List.range n).foldl (fun s k => compress s (blockAt m k)) s

/-- `M ++ pad(L)` (41_stream.md R97). -/
def padded (m : List Byte) : List Byte := m ++ pad m.length

/-- The final state of the hash of `m`: `compress` over the `(L + len(pad(L))) / 64` blocks of the
padded message, from `IV` (41_stream.md R97). -/
def sha256 (m : List Byte) : HashState := hashBlocks iv (padded m) ((padded m).length / 64)

/-- `serialize`: byte `4i + k` is bits `31 - 8k : 24 - 8k` of word `i` (10_state.md R35). -/
def serialize (h : HashState) : List Byte := h.toList.flatMap wordBytes

end Sys2Proof.Machine
end

