-- ==== Sys2Proof/Safety.lean ====
section
/-! DEFINITION. What claims are stated with: the invariant of the engine's reachable states
(spec/10_state.md R21, R23, R24, R29), the message a Ready context stands for (spec/41_stream.md R97),
and the outcome of a step as a relation. -/

namespace Sys2Proof

open Sys2Proof.Machine

/-- What every reachable state satisfies. The first three clauses are 10_state.md R29 (a) to (c);
the others say what R21, R23, R24, R29 and 42_midstate.md R105 give in the other states. -/
structure Inv (s : State) : Prop where
  /-- R29 (a): `BUFLEN = LEN mod 64` while Ready. -/
  buflen_of_ready : s.ready = true → s.buflen.toNat = s.len.toNat % 64
  /-- R29 (b): the bytes at or past `BUFLEN` are zero while Ready. -/
  buf_of_ready : s.ready = true → ∀ j : Fin 64, s.buflen.toNat ≤ j.val → s.buf[j] = 0
  /-- R29 (c): `LEN <= LEN_MAX` while Ready. -/
  len_of_ready : s.ready = true → s.len.toNat ≤ Config.lenMax
  /-- R23, R29 (d): `DVALID = 1` implies `READY = 0`. -/
  ready_of_dvalid : s.dvalid = true → s.ready = false
  /-- R29: while the digest of a FINALIZE is valid the buffer is empty and cleared. -/
  buf_of_dvalid : s.dvalid = true → s.buf = zeroBlock
  /-- While Finalized `BUFLEN` is 0: FINALIZE leaves 0 (R29) and no load writes it
  (42_midstate.md R105). -/
  buflen_of_finalized : s.ready = false → s.buflen = 0
  /-- R24: `ERRCODE` is NONE exactly when `ERR = 0`. -/
  errcode_none : s.errcode = .none ↔ s.err = false
  /-- The ghost flag covers every recorded error (60_exceptions.md section 6). -/
  everRejected_of_err : s.err = true → s.everRejected = true

/-- A run that is safe to draw a digest from: no operation was ever rejected (60_exceptions.md
section 6; 70_reset_and_hazards.md R136). -/
def NeverRejected (s : State) : Prop := s.everRejected = false

/-- The Ready state `s` has appended exactly the bytes `m` since reset or REINIT: `H` is the hash of
the full blocks of `m`, the buffer holds the rest (41_stream.md R97). -/
structure Holds (s : State) (m : List Byte) : Prop where
  ready : s.ready = true
  short : m.length ≤ Config.lenMax
  len : s.len = BitVec.ofNat 64 m.length
  h : s.h = hashBlocks iv m (m.length / 64)
  buflen : s.buflen = BitVec.ofNat 6 m.length
  buf : s.buf = blockAt m (m.length / 64)

/-- `n` steps of the machine. -/
def runSteps : Nat → State → Host.Outcome State Fault Refusal
  | 0, s => .next s
  | n + 1, s =>
    match step s with
    | .next t => runSteps n t
    | .fault r => .fault r
    | .refused r => .refused r

/-- The elements of the engine, 10_state.md R17, agree; the fields of the model's own may differ. -/
structure SameEngine (s t : State) : Prop where
  h : s.h = t.h
  buf : s.buf = t.buf
  buflen : s.buflen = t.buflen
  len : s.len = t.len
  ready : s.ready = t.ready
  dvalid : s.dvalid = t.dvalid
  err : s.err = t.err
  errcode : s.errcode = t.errcode
  din : s.din = t.din

end Sys2Proof
end

