-- ==== Sys2Proof/Certificates/Slice0/Obligations.lean ====
section
/-! DEFINITION. The statements for the provers. Each docstring names the rules of spec/ that the statement
formalises. -/

open Sys2Proof Sys2Proof.Machine

/-! ## Encoding -/

/-- 30_encoding.md R60 to R63: decoding the word of a well-formed command gives the command back. -/
def Obligations.DecodeOfEncodeIsTheCommand : Prop :=
  ∀ i : Instr, i.wf = true → decode (encode i) = some i

/-- 30_encoding.md R62 to R64: a word that decodes is the word of the command it decodes to, and that
command is well formed, so no two words share a command. -/
def Obligations.EncodeOfDecodeIsTheWord : Prop :=
  ∀ (c : Word) (i : Instr), decode c = some i → i.wf = true ∧ encode i = c

/-- 30_encoding.md R64: the illegal words, by their fields as numbers, and that each is rejected with
ILLEGAL_CMD and no effect beyond `ERR` and `ERRCODE` (`everRejected` is the model's ghost flag, log 4). -/
def Obligations.IllegalWordsAreExactlyThese : Prop :=
  (∀ (c : Word) (s : State), decode c = none → executeCommand c s = .next { s with
    errcode := if s.err = true then s.errcode else .illegalCmd, err := true, everRejected := true }) ∧
  ∀ c : Word, decode c = none ↔
    (c.toNat / 2 ^ 24 = 0x00 ∨ (0x05 ≤ c.toNat / 2 ^ 24 ∧ c.toNat / 2 ^ 24 ≤ 0x0F) ∨ 0x15 ≤ c.toNat / 2 ^ 24) ∨
    c.toNat / 2 ^ 6 % 2 ^ 18 ≠ 0 ∨
    (c.toNat / 2 ^ 24 = 0x01 ∧ (5 ≤ c.toNat % 8 ∨ c.toNat % 64 / 8 ≠ 0)) ∨
    (c.toNat / 2 ^ 24 = 0x10 ∧ c.toNat % 64 / 8 ≠ 0) ∨
    (c.toNat / 2 ^ 24 = 0x11 ∧ c.toNat % 64 / 16 ≠ 0) ∨
    (c.toNat / 2 ^ 24 ∈ [0x02, 0x03, 0x04, 0x12, 0x13, 0x14] ∧ c.toNat % 64 ≠ 0)

/-- 30_encoding.md R64, 60_exceptions.md R113: a write of an illegal word to `CMD` sets `ERR`, records
ILLEGAL_CMD if it is the first error, and changes nothing else, in every state. `pending` and `everRejected`
are the model's choices, logs 1 and 4. -/
def Obligations.IllegalWordIsRejected : Prop :=
  ∀ (s : State) (rest : List Txn) (c : Word), s.pending = .write 0x000 4 c :: rest → decode c = none →
    step s = .next { s with
      pending := rest, errcode := if s.err = true then s.errcode else .illegalCmd, err := true,
      everRejected := true }

/-- 60_exceptions.md R114, 00_scope.md R4: without the midstate extension exactly the words of its five
commands become illegal, and every other word decodes as before. -/
def Obligations.MidstateWordsNeedTheExtension : Prop :=
  ∀ c : Word,
    (decodeWith false c =
      match decodeWith true c with
      | some (.ldh _) => none
      | some (.ldbuf _) => none
      | some .ldlenlo => none
      | some .ldlenhi => none
      | some .resume => none
      | r => r) ∧
    decode c = decodeWith true c

/-- 30_encoding.md R66: words written out from the spec's table of mnemonics, one or two of each
format. -/
def Obligations.SpecWordsDecode : Prop :=
  decode 0x01000000 = some (.update 0) ∧ decode 0x01000004 = some (.update 4) ∧
  decode 0x02000000 = some .finalize ∧ decode 0x10000007 = some (.ldh 7) ∧
  decode 0x1100000f = some (.ldbuf 15) ∧ decode 0x14000000 = some .resume ∧
  decode 0x01000005 = none ∧ decode 0x04800000 = none ∧ decode 0x00000000 = none

/-! ## The step and the queue of transactions -/

/-- 20_memory.md R43, 30_encoding.md R63: when the host's next transaction writes a command word to
`CMD`, the step is the command, on the state whose queue has moved on by that transaction (the queue is the
model's, log 1). -/
def Obligations.StepRunsTheDecodedCommand : Prop :=
  ∀ (s : State) (rest : List Txn) (c : Word) (i : Instr),
    s.pending = .write 0x000 4 c :: rest → decode c = some i → step s = exec i { s with pending := rest }

/-- The model's choice of log 2 (70_reset_and_hazards.md R138): when no transaction is left, a step leaves
the state as it is. -/
def Obligations.IdleStepChangesNothing : Prop :=
  ∀ s : State, s.pending = [] → step s = .next s

/-- 20_memory.md R41, 60_exceptions.md R119, 70_reset_and_hazards.md R133, R139: the engine never stops, and
each step takes one transaction off the queue (the queue is the model's, log 1). -/
def Obligations.EveryStepCompletes : Prop :=
  ∀ s : State, ∃ t, step s = .next t ∧ t.pending = s.pending.tail

/-- 20_memory.md R41, R53: as many steps as there are transactions run them one at a time, in the order
received, and leave the later ones in the queue (the queue is the model's, log 1). -/
def Obligations.QueueRunsInOrder : Prop :=
  ∀ (ts rest : List Txn) (s : State),
    runSteps ts.length { s with pending := ts ++ rest } = runTxns ts { s with pending := rest }

/-! ## The register window -/

/-- 20_memory.md R42: the value of every read, whole, and that a read changes nothing (the noted value is
the model's, log 3). -/
def Obligations.RegisterReadValues : Prop :=
  (∀ (s : State) (off : Offset) (size : Nat), size ≠ 4 ∨ off.val % 4 ≠ 0 → regRead off size s = 0) ∧
  (∀ s : State, regRead 0x004 4 s = s.din ∧ regRead 0x008 4 s = statusWord s ∧
    (regRead 0x00C 4 s).toNat = s.len.toNat % 2 ^ 32 ∧ (regRead 0x010 4 s).toNat = s.len.toNat / 2 ^ 32) ∧
  (∀ (s : State) (off : Offset) (i : Fin 8), off.val = 0x020 + 4 * i.val → regRead off 4 s = s.h[i]) ∧
  (∀ (s : State) (off : Offset) (j : Fin 16), off.val = 0x040 + 4 * j.val →
    regRead off 4 s = be32 s.buf[4 * j.val] s.buf[4 * j.val + 1] s.buf[4 * j.val + 2] s.buf[4 * j.val + 3]) ∧
  (∀ (s : State) (off : Offset) (i : Fin 8), off.val = 0x080 + 4 * i.val →
    regRead off 4 s = if s.dvalid = true then s.h[i] else 0) ∧
  (∀ (s : State) (off : Offset), off.val = 0 ∨ (0x010 < off.val ∧ off.val < 0x020) ∨ 0x0A0 ≤ off.val →
    regRead off 4 s = 0) ∧
  (∀ (s : State) (off : Offset) (size : Nat) (rest : List Txn), s.pending = .read off size :: rest →
    step s = .next { s with pending := rest, reads := s.reads ++ [regRead off size s] })

/-- 20_memory.md R45: any number of reads, in any order, leaves every element as it was, and each returns
what its offset holds in the state before them all (the noted values are the model's, log 3). -/
def Obligations.ReadsChangeNothing : Prop :=
  ∀ (accesses : List (Offset × Nat)) (s : State),
    runTxns (accesses.map fun a => .read a.1 a.2) s =
      .next { s with reads := s.reads ++ accesses.map fun a => regRead a.1 a.2 s }

/-- 10_state.md R31, 60_exceptions.md R112: the fields of `STATUS`, the reserved ones zero, and the numbers
of the error codes. -/
def Obligations.StatusFields : Prop :=
  (∀ s : State,
    (regRead 0x008 4 s).toNat % 2 = s.ready.toNat ∧ (regRead 0x008 4 s).toNat / 2 % 2 = s.dvalid.toNat ∧
    (regRead 0x008 4 s).toNat / 4 % 2 = s.err.toNat ∧ (regRead 0x008 4 s).toNat / 8 % 32 = 0 ∧
    (regRead 0x008 4 s).toNat / 256 % 16 = s.errcode.bits.toNat ∧ (regRead 0x008 4 s).toNat / 4096 % 16 = 0 ∧
    (regRead 0x008 4 s).toNat / 65536 % 64 = s.buflen.toNat ∧ (regRead 0x008 4 s).toNat / 4194304 = 0) ∧
  ErrCode.none.bits = 0 ∧ ErrCode.illegalCmd.bits = 1 ∧ ErrCode.notReady.bits = 2 ∧
  ErrCode.stillReady.bits = 3 ∧ ErrCode.lenOvf.bits = 4 ∧ ErrCode.badAccess.bits = 5

/-- 20_memory.md R43, 60_exceptions.md R117: a write of a wrong width or alignment, or to an offset other than `CMD` and `DIN`, is
rejected with BAD_ACCESS and changes nothing else; a write to `CMD` executes the word; a write to `DIN`
stores it. `pending` and `everRejected` are the model's choices, logs 1 and 4. -/
def Obligations.WritesReachOnlyCmdAndDin : Prop :=
  ∀ (s : State) (off : Offset) (size : Nat) (v : Word) (rest : List Txn), s.pending = .write off size v :: rest →
    (size ≠ 4 ∨ off.val % 4 ≠ 0 ∨ 4 < off.val →
      step s = .next { s with
        pending := rest, errcode := if s.err = true then s.errcode else .badAccess, err := true,
        everRejected := true }) ∧
    (size = 4 → off.val = 0 → step s = executeCommand v { s with pending := rest }) ∧
    (size = 4 → off.val = 4 → step s = .next { s with pending := rest, din := v })

/-- 20_memory.md R39: an address in the window selects the offset `address - BASE`; an access outside it
leaves the engine, its queue included, as it is (the queue and the treatment of outside accesses are the
model's, logs 1 and 6). -/
def Obligations.WindowDecodesItsAddresses : Prop :=
  (∀ (base addr : Nat) (off : Offset), offsetOf base addr = some off ↔ addr = base + off.val) ∧
  (∀ (base addr : Nat), offsetOf base addr = none ↔ addr < base ∨ base + 256 ≤ addr) ∧
  (∀ (s : State) (addr size : Nat) (v : Word), addr < Config.base ∨ Config.base + 256 ≤ addr →
    s.receive (.read addr size) = s ∧ s.receive (.write addr size v) = s) ∧
  (∀ (s : State) (off : Offset) (size : Nat) (v : Word),
    s.receive (.write (Config.base + off.val) size v) = { s with pending := s.pending ++ [.write off size v] } ∧
    s.receive (.read (Config.base + off.val) size) = { s with pending := s.pending ++ [.read off size] })

/-- 10_state.md R35: the digest registers read `H` while `DVALID = 1` and 0 otherwise, and byte `4i + k` of
the digest is bits `31 - 8k : 24 - 8k` of `DIGESTi`. -/
def Obligations.DigestRegisters : Prop :=
  ∀ (s t : State), runTxns rdDigest s = .next t →
    (s.dvalid = false → t = { s with reads := s.reads ++ List.replicate 8 0 }) ∧
    (s.dvalid = true → t = { s with reads := s.reads ++ s.h.toList } ∧
      ∀ (i : Fin 8) (k : Fin 4),
        (serialize s.h)[4 * i.val + k.val]? = some (s.h[i].extractLsb' (24 - 8 * k.val) 8))

/-! ## Reset -/

/-- 70_reset_and_hazards.md R129, 40_compressor.md R77: reset sets every element, in every state, and the
register reads after it. -/
def Obligations.ResetSetsEveryElement : Prop :=
  ∀ (s : State) (rest : List Txn), s.pending = .reset :: rest →
    ∃ t, step s = .next t ∧
      t.h = #v[0x6a09e667, 0xbb67ae85, 0x3c6ef372, 0xa54ff53a, 0x510e527f, 0x9b05688c, 0x1f83d9ab, 0x5be0cd19] ∧
      (∀ j : Fin 64, t.buf[j] = 0) ∧ t.buflen = 0 ∧ t.len = 0 ∧ t.ready = true ∧ t.dvalid = false ∧
      t.err = false ∧ t.errcode = .none ∧ t.din = 0 ∧
      regRead 0x008 4 t = 1 ∧ regRead 0x00C 4 t = 0 ∧ regRead 0x010 4 t = 0 ∧ regRead 0x004 4 t = 0 ∧
      (∀ i : Fin 8, regRead (wordOffset 0x020 i.val) 4 t = t.h[i] ∧ regRead (wordOffset 0x080 i.val) 4 t = 0) ∧
      ∀ j : Fin 16, regRead (wordOffset 0x040 j.val) 4 t = 0

/-- 70_reset_and_hazards.md R131: whatever a command has computed, a reset leaves the reset state: after the
command and a reset the engine is as after the reset alone. A reset keeps the fields of the model's own
(log 5). -/
def Obligations.ResetAbandonsTheCommand : Prop :=
  ∀ (c : Word) (s : State), ∃ t u,
    runTxns [.write 0x000 4 c, .reset] s = .next t ∧ runTxns [.reset] s = .next u ∧
      SameEngine t u ∧ SameEngine u State.reset ∧
      u.pending = s.pending ∧ u.reads = s.reads ∧ u.everRejected = s.everRejected

/-! ## Errors -/

/-- 60_exceptions.md R113: what raising an error does, element by element. -/
def Obligations.RaisedErrorKeepsTheFirstCode : Prop :=
  ∀ (code : ErrCode) (s : State),
    (s.err = false → (raiseError code s).errcode = code) ∧ (s.err = true → (raiseError code s).errcode = s.errcode) ∧
    (raiseError code s).err = true ∧
    raiseError code s = { s with
      errcode := (raiseError code s).errcode, err := true, everRejected := true }

/-- 60_exceptions.md R113, 10_state.md R28: a transaction that is rejected (the ghost flag of log 4 rises)
raises one named error and changes nothing else. -/
def Obligations.RejectionIsPrecise : Prop :=
  ∀ (x : Txn) (s t : State), s.everRejected = false → runTxn x s = .next t → t.everRejected = true →
    ∃ code, code ≠ .none ∧
      t = { s with errcode := if s.err = true then s.errcode else code, err := true, everRejected := true }

/-- 60_exceptions.md R115, R116: the states in which each well-formed command is misused, with the code; in
every other state, the count within its limit, the command is accepted: no error is recorded. Acceptance is
read off the ghost flag `everRejected`, the model's choice (log 4). -/
def Obligations.MisuseTable : Prop :=
  ∀ s : State,
    (s.ready = false →
      (∀ nb : BitVec 3, nb.toNat ≤ 4 → exec (.update nb) s = .next (raiseError .notReady s)) ∧
      exec .finalize s = .next (raiseError .notReady s)) ∧
    (s.ready = true →
      exec .reinit s = .next (raiseError .stillReady s) ∧
      (∀ i, exec (.ldh i) s = .next (raiseError .stillReady s)) ∧
      (∀ j, exec (.ldbuf j) s = .next (raiseError .stillReady s)) ∧
      exec .ldlenlo s = .next (raiseError .stillReady s) ∧ exec .ldlenhi s = .next (raiseError .stillReady s) ∧
      exec .resume s = .next (raiseError .stillReady s)) ∧
    ∀ i : Instr, i.wf = true →
      (match i with
        | .update nb => s.ready = true ∧ s.len.toNat + nb.toNat ≤ 2 ^ 61 - 1
        | .finalize => s.ready = true
        | .clrerr => True
        | .resume => s.ready = false ∧ s.len.toNat ≤ 2 ^ 61 - 1
        | _ => s.ready = false) →
      ∃ t, exec i s = .next t ∧ t.everRejected = s.everRejected ∧
        (i ≠ .clrerr → t.err = s.err ∧ t.errcode = s.errcode)

/-- 60_exceptions.md R118: the order of the checks. The form of the write comes before the word, the word
before the state, the state before the count. -/
def Obligations.ChecksAreOrdered : Prop :=
  (∀ (s : State) (off : Offset) (size : Nat) (c : Word), size ≠ 4 ∨ off.val % 4 ≠ 0 →
    runTxn (.write off size c) s = .next (raiseError .badAccess s)) ∧
  (∀ (s : State) (c : Word), decode c = none →
    runTxn (.write 0x000 4 c) s = .next (raiseError .illegalCmd s)) ∧
  (∀ (s : State) (nb : BitVec 3), nb.toNat ≤ 4 → s.ready = false →
    runTxn (cmd (.update nb)) s = .next (raiseError .notReady s)) ∧
  (∀ s : State, s.ready = true → runTxn (cmd .resume) s = .next (raiseError .stillReady s)) ∧
  (∀ (s : State) (nb : BitVec 3), nb.toNat ≤ 4 → s.ready = true → 2 ^ 61 - 1 < s.len.toNat + nb.toNat →
    runTxn (cmd (.update nb)) s = .next (raiseError .lenOvf s)) ∧
  (∀ s : State, s.ready = false → 2 ^ 61 - 1 < s.len.toNat →
    runTxn (cmd .resume) s = .next (raiseError .lenOvf s))

/-- 41_stream.md R90: an UPDATE that would pass the limit is rejected and appends none of its bytes, even
those that would have fitted. `everRejected` is the model's choice, log 4. -/
def Obligations.CountPastTheLimitIsRejected : Prop :=
  ∀ (s : State) (nb : BitVec 3), nb.toNat ≤ 4 → s.ready = true → 2 ^ 61 - 1 < s.len.toNat + nb.toNat →
    exec (.update nb) s = .next { s with
      errcode := if s.err = true then s.errcode else .lenOvf, err := true, everRejected := true }

/-- 60_exceptions.md R115: "`ERR = 1` does not make any command rejected". Two states that differ only in
`ERR` and `ERRCODE` give, for every command, two states that differ only there. -/
def Obligations.ErrBlocksNothing : Prop :=
  ∀ (i : Instr) (s : State) (e : Bool) (code : ErrCode), ∃ t e' code',
    exec i s = .next t ∧
      exec i { s with err := e, errcode := code } = .next { t with err := e', errcode := code' }

/-- 10_state.md R24, 43_control.md R110, 60_exceptions.md R120: only CLRERR and reset clear `ERR`, and while
it stays set `ERRCODE` keeps its value. -/
def Obligations.ErrIsStickyUntilClrerrOrReset : Prop :=
  ∀ s t : State, step s = .next t → s.err = true →
    (t.err = true ∧ t.errcode = s.errcode) ∨
      (t.err = false ∧ ∃ rest, s.pending = .write 0x000 4 0x04000000 :: rest ∨ s.pending = .reset :: rest)

/-- The model's ghost flag (log 4; 60_exceptions.md section 6): no step clears it, and every step that sets
`ERR` sets it. -/
def Obligations.GhostFlagNeverClears : Prop :=
  ∀ s t : State, step s = .next t →
    (s.everRejected = true → t.everRejected = true) ∧
    (s.err = false → t.err = true → t.everRejected = true)

/-! ## UPDATE -/

/-- 41_stream.md R89: an accepted UPDATE that completes no block puts the `NB` most significant bytes of
`DIN` behind the valid bytes and counts them; nothing else changes. -/
def Obligations.UpdateWithinTheBlock : Prop :=
  ∀ (s : State) (nb : BitVec 3), nb.toNat ≤ 4 → s.ready = true → s.len.toNat + nb.toNat ≤ 2 ^ 61 - 1 →
    s.buflen.toNat + nb.toNat < 64 →
    exec (.update nb) s = .next { s with
      buf := Vector.ofFn fun j : Fin 64 =>
        if s.buflen.toNat ≤ j.val ∧ j.val < s.buflen.toNat + nb.toNat
        then s.din.extractLsb' (24 - 8 * (j.val - s.buflen.toNat)) 8 else s.buf[j]
      buflen := BitVec.ofNat 6 (s.buflen.toNat + nb.toNat)
      len := BitVec.ofNat 64 (s.len.toNat + nb.toNat) }

/-- 41_stream.md R88, R89: an accepted UPDATE that completes a block compresses it within the command; the
bytes past the block start the next one, in a cleared buffer; nothing else changes. -/
def Obligations.UpdateCompletesTheBlock : Prop :=
  ∀ (s : State) (nb : BitVec 3), nb.toNat ≤ 4 → s.ready = true → s.len.toNat + nb.toNat ≤ 2 ^ 61 - 1 →
    64 ≤ s.buflen.toNat + nb.toNat →
    exec (.update nb) s = .next { s with
      h := compress s.h (Vector.ofFn fun j : Fin 64 =>
        if s.buflen.toNat ≤ j.val then s.din.extractLsb' (24 - 8 * (j.val - s.buflen.toNat)) 8 else s.buf[j])
      buf := Vector.ofFn fun j : Fin 64 =>
        if j.val < s.buflen.toNat + nb.toNat - 64
        then s.din.extractLsb' (24 - 8 * (64 - s.buflen.toNat + j.val)) 8 else 0
      buflen := BitVec.ofNat 6 (s.buflen.toNat + nb.toNat - 64)
      len := BitVec.ofNat 64 (s.len.toNat + nb.toNat) }

/-- 41_stream.md R91: UPDATE 0 changes no state when Ready (the counter within its limit, 10_state.md R29)
and is rejected with NOT_READY like any UPDATE otherwise. -/
def Obligations.UpdateOfNoBytes : Prop :=
  ∀ s : State,
    (Inv s → s.ready = true → runTxn (.write 0x000 4 0x01000000) s = .next s) ∧
    (s.ready = false → runTxn (.write 0x000 4 0x01000000) s = .next (raiseError .notReady s))

/-- 20_memory.md R47: a word written to `DIN` and appended with UPDATE 4 at a word boundary of the buffer is
the same value in `BUFWn`, in the buffer or, for the last word, in the block it completes. -/
def Obligations.AlignedWordLandsUnchanged : Prop :=
  ∀ (s : State) (n : Fin 16) (v : Word), s.ready = true → s.len.toNat + 4 ≤ 2 ^ 61 - 1 →
    s.buflen.toNat = 4 * n.val →
    ∃ t b, runTxns [wdin v, cmd (.update 4)] s = .next t ∧
      bufWord b n = v ∧ (∀ m : Fin 16, m ≠ n → bufWord b m = bufWord s.buf m) ∧
      (n.val < 15 → t.buf = b ∧ t.h = s.h ∧ t.buflen.toNat = 4 * n.val + 4) ∧
      (n.val = 15 → t.buf = zeroBlock ∧ t.h = compress s.h b ∧ t.buflen = 0)

/-! ## FINALIZE and REINIT -/

/-- 41_stream.md R93, R95: with at most 55 buffered bytes, FINALIZE compresses one block: the buffered bytes,
0x80, zeros, the bit length. It leaves the digest in `H` and changes nothing else but the buffer, which is
cleared, `READY` and `DVALID`. -/
def Obligations.FinalizeInOneBlock : Prop :=
  ∀ s : State, s.ready = true → s.buflen.toNat ≤ 55 →
    exec .finalize s = .next { s with
      h := compress s.h (blockAt (s.buf.toList.take s.buflen.toNat ++ [(0x80 : Byte)] ++
        List.replicate (55 - s.buflen.toNat) (0x00 : Byte) ++ be64Bytes (s.len <<< 3)) 0)
      buf := Vector.replicate 64 0
      buflen := 0
      ready := false
      dvalid := true }

/-- 41_stream.md R93, R95: with 56 buffered bytes or more, FINALIZE compresses two blocks, the second of 56
zeros and the bit length. -/
def Obligations.FinalizeInTwoBlocks : Prop :=
  ∀ s : State, s.ready = true → 56 ≤ s.buflen.toNat →
    exec .finalize s = .next { s with
      h := compress (compress s.h (blockAt (s.buf.toList.take s.buflen.toNat ++ [(0x80 : Byte)] ++
          List.replicate (63 - s.buflen.toNat) (0x00 : Byte)) 0))
        (blockAt (List.replicate 56 (0x00 : Byte) ++ be64Bytes (s.len <<< 3)) 0)
      buf := Vector.replicate 64 0
      buflen := 0
      ready := false
      dvalid := true }

/-- 41_stream.md R98: REINIT, of the word 0x03000000, in every state that is not Ready, and its end state
equals the reset state except for `DIN`, `ERR` and `ERRCODE` (and the fields of the model's own, logs 1, 3
and 4). -/
def Obligations.ReinitReturnsToCreated : Prop :=
  decode 0x03000000 = some .reinit ∧
  ∀ s : State,
    (s.ready = true → exec .reinit s = .next (raiseError .stillReady s)) ∧
    (s.ready = false →
      exec .reinit s = .next { s with
        h := iv, buf := Vector.replicate 64 0, buflen := 0, len := 0, ready := true, dvalid := false } ∧
      exec .reinit s = .next { State.reset with
        din := s.din, err := s.err, errcode := s.errcode,
        pending := s.pending, reads := s.reads, everRejected := s.everRejected })

/-! ## CLRERR and the midstate commands -/

/-- 43_control.md R110: CLRERR is accepted in every state, clears `ERR` and `ERRCODE` and changes nothing
else; with `ERR = 0` (and so `ERRCODE` NONE, 10_state.md R24) it changes nothing. Its one word is 0x04000000
and it is the only command that clears `ERR`. -/
def Obligations.ClrerrClearsTheError : Prop :=
  (∀ c : Word, decode c = some .clrerr ↔ c = 0x04000000) ∧
  (∀ s : State,
    exec .clrerr s = .next { s with err := false, errcode := .none } ∧
    (Inv s → s.err = false → exec .clrerr s = .next s)) ∧
  ∀ (i : Instr) (s t : State), exec i s = .next t → s.err = true → t.err = false → i = .clrerr

/-- 42_midstate.md R104: LDH, of the word 0x1000000i, writes `H[IDX]` from `DIN` and clears `DVALID`; every other word of `H` and every
other element stays. -/
def Obligations.LdhLoadsOneWord : Prop :=
  ∀ (s : State) (idx : Fin 8),
    decode (0x10000000 + BitVec.ofNat 32 idx.val) = some (.ldh idx) ∧
    (s.ready = true → exec (.ldh idx) s = .next (raiseError .stillReady s)) ∧
    (s.ready = false → ∃ t, exec (.ldh idx) s = .next t ∧ t = { s with h := t.h, dvalid := false } ∧
      t.h[idx] = s.din ∧ (∀ k : Fin 8, k ≠ idx → t.h[k] = s.h[k]) ∧
      ∀ k : Fin 8, regRead (wordOffset 0x080 k.val) 4 t = 0)

/-- 42_midstate.md R105: LDBUF, of the word 0x1100000j, writes the four bytes of `BUFW[IDX]` from `DIN`, most significant first, and
clears `DVALID`; every other byte and every other element stays. -/
def Obligations.LdbufLoadsOneWord : Prop :=
  ∀ (s : State) (idx : Fin 16),
    decode (0x11000000 + BitVec.ofNat 32 idx.val) = some (.ldbuf idx) ∧
    (s.ready = true → exec (.ldbuf idx) s = .next (raiseError .stillReady s)) ∧
    (s.ready = false → ∃ t, exec (.ldbuf idx) s = .next t ∧ t = { s with buf := t.buf, dvalid := false } ∧
      bufWord t.buf idx = s.din ∧
      ∀ j : Fin 64, t.buf[j] =
        if j.val / 4 = idx.val then s.din.extractLsb' (24 - 8 * (j.val % 4)) 8 else s.buf[j])

/-- 42_midstate.md R106, R107: LDLENLO and LDLENHI write one half of `LEN` from `DIN`, with no range check,
and clear `DVALID`; the other half and every other element stay. -/
def Obligations.LdlenLoadsOneHalf : Prop :=
  decode 0x12000000 = some .ldlenlo ∧ decode 0x13000000 = some .ldlenhi ∧
  ∀ s : State,
    (s.ready = true → exec .ldlenlo s = .next (raiseError .stillReady s) ∧
      exec .ldlenhi s = .next (raiseError .stillReady s)) ∧
    (s.ready = false →
      exec .ldlenlo s = .next { s with
        len := BitVec.ofNat 64 (s.len.toNat / 2 ^ 32 * 2 ^ 32 + s.din.toNat), dvalid := false } ∧
      exec .ldlenhi s = .next { s with
        len := BitVec.ofNat 64 (s.din.toNat * 2 ^ 32 + s.len.toNat % 2 ^ 32), dvalid := false })

/-- 42_midstate.md R108: RESUME of a counter within the limit derives `BUFLEN` from it, zeroes the bytes at or
past it and becomes Ready; past the limit it is rejected and the loaded values stay. -/
def Obligations.ResumeMakesReady : Prop :=
  decode 0x14000000 = some .resume ∧
  ∀ s : State,
    (s.ready = true → exec .resume s = .next (raiseError .stillReady s)) ∧
    (s.ready = false → 2 ^ 61 - 1 < s.len.toNat → exec .resume s = .next (raiseError .lenOvf s)) ∧
    (s.ready = false → s.len.toNat ≤ 2 ^ 61 - 1 →
      exec .resume s = .next { s with
        buflen := BitVec.ofNat 6 (s.len.toNat % 64)
        buf := Vector.ofFn fun j : Fin 64 => if s.len.toNat % 64 ≤ j.val then 0 else s.buf[j]
        ready := true
        dvalid := false })

/-! ## Rules of the whole machine -/

/-- 10_state.md R25: only a 32-bit write to `DIN` and reset change `DIN`; no command does. -/
def Obligations.OnlyItsWriteAndResetChangeDin : Prop :=
  ∀ s t : State, step s = .next t → t.din ≠ s.din →
    (∃ rest, s.pending = .write 0x004 4 t.din :: rest) ∨ (∃ rest, s.pending = .reset :: rest)

/-- 10_state.md R18: the writers of `H`: a compression in UPDATE or FINALIZE, REINIT, LDH, reset. -/
def Obligations.WritersOfH : Prop :=
  ∀ s t : State, step s = .next t → t.h ≠ s.h →
    (∃ rest, s.pending = .reset :: rest ∧ t.h = iv) ∨
    ∃ c rest, s.pending = .write 0x000 4 c :: rest ∧
      ((∃ nb, decode c = some (.update nb) ∧ s.ready = true ∧ 64 ≤ s.buflen.toNat + nb.toNat ∧
          ∃ b, t.h = compress s.h b) ∨
        (decode c = some .finalize ∧ s.ready = true) ∨
        (decode c = some .reinit ∧ s.ready = false ∧ t.h = iv) ∨
        (∃ idx, decode c = some (.ldh idx) ∧ s.ready = false ∧ t.h = s.h.set idx s.din))

/-- 10_state.md R22: the transitions of {Ready, Finalized} by commands, each named, and no others. -/
def Obligations.ReadyTransitions : Prop :=
  ∀ (i : Instr) (s t : State), exec i s = .next t →
    (s.ready = true → (t.ready = false ↔ i = .finalize)) ∧
    (s.ready = false → (t.ready = true ↔ i = .reinit ∨ (i = .resume ∧ s.len.toNat ≤ 2 ^ 61 - 1)))

/-- 10_state.md R23: from a state of the invariant, `DVALID` is 1 after a step only when the step is a
FINALIZE that was accepted, or it was 1 before and `H` is unchanged. -/
def Obligations.DvalidMeansTheLastDigest : Prop :=
  ∀ s t : State, Inv s → step s = .next t → t.dvalid = true →
    (s.ready = true ∧ ∃ rest, s.pending = .write 0x000 4 0x02000000 :: rest) ∨ (s.dvalid = true ∧ t.h = s.h)

/-- 10_state.md R29: the reset state satisfies the invariant. -/
def Obligations.InvariantHoldsAtReset : Prop := Inv State.reset

/-- 10_state.md R29: every step keeps the invariant. Its clauses outside R29 are DEDUCED (log 16). -/
def Obligations.EveryStepKeepsTheInvariant : Prop :=
  ∀ s t : State, Inv s → step s = .next t → Inv t

/-! ## The compressor -/

/-- 40_compressor.md R70 to R73, 00_scope.md R12: each bit of the four sigma functions. -/
def Obligations.SigmaFunctionsByBit : Prop :=
  ∀ (x : Word) (k : Nat), k < 32 →
    (smallSigma0 x).getLsbD k =
      ((x.getLsbD ((k + 7) % 32) ^^ x.getLsbD ((k + 18) % 32)) ^^ (decide (k + 3 < 32) && x.getLsbD (k + 3))) ∧
    (smallSigma1 x).getLsbD k =
      ((x.getLsbD ((k + 17) % 32) ^^ x.getLsbD ((k + 19) % 32)) ^^ (decide (k + 10 < 32) && x.getLsbD (k + 10))) ∧
    (bigSigma0 x).getLsbD k =
      ((x.getLsbD ((k + 2) % 32) ^^ x.getLsbD ((k + 13) % 32)) ^^ x.getLsbD ((k + 22) % 32)) ∧
    (bigSigma1 x).getLsbD k =
      ((x.getLsbD ((k + 6) % 32) ^^ x.getLsbD ((k + 11) % 32)) ^^ x.getLsbD ((k + 25) % 32))

/-- 40_compressor.md R74, R75: bit by bit, `Ch` chooses and `Maj` is the majority. -/
def Obligations.ChooseAndMajorityByBit : Prop :=
  ∀ (x y z : Word) (k : Nat), k < 32 →
    (ch x y z).getLsbD k = (if x.getLsbD k = true then y.getLsbD k else z.getLsbD k) ∧
    (maj x y z).getLsbD k =
      decide (2 ≤ (x.getLsbD k).toNat + (y.getLsbD k).toNat + (z.getLsbD k).toNat)

/-- 40_compressor.md R78, R79: the schedule's first 16 words are the block's, and every later word follows the
recurrence. -/
def Obligations.ScheduleRecurrence : Prop :=
  ∀ b : Block,
    (∀ t : Fin 16, (schedule b)[t.val] = be32 b[4 * t.val] b[4 * t.val + 1] b[4 * t.val + 2] b[4 * t.val + 3]) ∧
    ∀ t : Fin 48, (schedule b)[t.val + 16] =
      smallSigma1 (schedule b)[t.val + 14] + (schedule b)[t.val + 9] +
        smallSigma0 (schedule b)[t.val + 1] + (schedule b)[t.val]

/-- 40_compressor.md R86: stepping round by round, nothing is exposed before round 64, and then the result is
`compress`. -/
def Obligations.RoundByRoundIsCompress : Prop :=
  ∀ (s : HashState) (b : Block),
    (∀ n, n < 64 → (Compression.run n (Compression.start s b)).result = none) ∧
    (Compression.run 64 (Compression.start s b)).result = some (compress s b)

/-- 40_compressor.md R85: an implementation that holds the last 16 schedule words only computes the same
function. -/
def Obligations.WindowedScheduleIsCompress : Prop :=
  ∀ (s : HashState) (b : Block), compressWindowed s b = compress s b

/-! ## Whole messages -/

/-- 41_stream.md R93: the padding, its length, and when it makes one block and when two. -/
def Obligations.PaddingFillsOneOrTwoBlocks : Prop :=
  ∀ n : Nat, n ≤ 2 ^ 61 - 1 →
    (∃ z, z < 64 ∧ pad n = [(0x80 : Byte)] ++ List.replicate z (0x00 : Byte) ++ be64Bytes (BitVec.ofNat 64 n <<< 3) ∧
      (n + 1 + z) % 64 = 56) ∧
    (BitVec.ofNat 64 n <<< 3).toNat = 8 * n ∧
    (n + (pad n).length) % 64 = 0 ∧
    (n % 64 ≤ 55 → (pad n).length = 64 - n % 64) ∧
    (56 ≤ n % 64 → (pad n).length = 128 - n % 64)

/-- 41_stream.md R98, R100 and 70_reset_and_hazards.md R129: the state after reset, and after every accepted
REINIT, has appended no byte. -/
def Obligations.CreatedContextIsEmpty : Prop :=
  Holds State.reset [] ∧
  ∀ s : State, s.ready = false → ∃ t, exec .reinit s = .next t ∧ Holds t []

/-- 41_stream.md R88, R89: a Ready context that has appended `m` has, after an accepted UPDATE, appended `m`
and the bytes of that UPDATE. -/
def Obligations.UpdateExtendsTheMessage : Prop :=
  ∀ (s : State) (m : List Byte) (nb : BitVec 3), Holds s m → nb.toNat ≤ 4 → m.length + nb.toNat ≤ 2 ^ 61 - 1 →
    ∃ t, exec (.update nb) s = .next t ∧ Holds t (m ++ (wordBytes s.din).take nb.toNat)

/-- 41_stream.md R97: a Ready context that has appended `m` leaves, on FINALIZE, the SHA-256 state of `m` in
`H`, readable in the digest registers; the counter still holds the length of `m`. -/
def Obligations.FinalizeGivesSha256 : Prop :=
  ∀ (s : State) (m : List Byte), Holds s m →
    ∃ t, exec .finalize s = .next t ∧ t.h = sha256 m ∧ t.dvalid = true ∧ t.ready = false ∧
      t.buf = zeroBlock ∧ t.buflen = 0 ∧ t.len = BitVec.ofNat 64 m.length ∧
      ∀ i : Fin 8, regRead (wordOffset 0x080 i.val) 4 t = (sha256 m)[i]

/-- 41_stream.md R99, 30_encoding.md R67: the operation `HASH` on a Created context is accepted throughout
and its eight reads return the SHA-256 digest of its bytes, for every message within the limit. Acceptance is
read off the ghost flag `everRejected`, and the values off `reads`, the model's choices (logs 4 and 3). -/
def Obligations.HashOperationReadsTheDigest : Prop :=
  ∀ (s : State) (m : List Byte), Holds s [] → m.length ≤ 2 ^ 61 - 1 →
    ∃ t, runTxns (AsmOp.hash m).expand s = .next t ∧ t.reads = s.reads ++ (sha256 m).toList ∧
      t.everRejected = s.everRejected

/-- 41_stream.md R92: two sequences of accepted UPDATEs whose bytes, in order, are the same leave the same
`H`, `BUF`, `BUFLEN` and `LEN`, whatever the grouping. A chunk is a `DIN` word and a byte count. Acceptance is
read off the ghost flag `everRejected`, the model's choice (log 4). -/
def Obligations.ChunkingInvariance : Prop :=
  ∀ (s : State) (cs ds : List (Word × BitVec 3)), s.ready = true →
    (∀ c ∈ cs, c.2.toNat ≤ 4) → (∀ d ∈ ds, d.2.toNat ≤ 4) →
    cs.flatMap (fun c => (wordBytes c.1).take c.2.toNat) = ds.flatMap (fun d => (wordBytes d.1).take d.2.toNat) →
    s.len.toNat + (cs.flatMap fun c => (wordBytes c.1).take c.2.toNat).length ≤ 2 ^ 61 - 1 →
    ∃ t u,
      runTxns (cs.flatMap fun c => [wdin c.1, cmd (.update c.2)]) s = .next t ∧
      runTxns (ds.flatMap fun d => [wdin d.1, cmd (.update d.2)]) s = .next u ∧
      t.h = u.h ∧ t.buf = u.buf ∧ t.buflen = u.buflen ∧ t.len = u.len ∧
      t.everRejected = s.everRejected ∧ u.everRejected = s.everRejected

/-- 42_midstate.md R109: the midstate of a Ready engine, restored into an engine that is not Ready, gives it
the same `H`, `BUF`, `BUFLEN`, `LEN`, `READY` and `DVALID` with no error, and the same later UPDATEs and
FINALIZE then leave the same digest in both. That no command of the restore is rejected is read off the ghost
flag `everRejected`, the model's choice (log 4). -/
def Obligations.MidstateRoundTrip : Prop :=
  ∀ e1 e2 : State, Inv e1 → e1.ready = true → e2.ready = false →
    ∃ t, runTxns (readMidstate e1).restore e2 = .next t ∧ t.everRejected = e2.everRejected ∧
      t.h = e1.h ∧ t.buf = e1.buf ∧ t.buflen = e1.buflen ∧ t.len = e1.len ∧ t.ready = true ∧ t.dvalid = false ∧
      ∀ cs : List (Word × BitVec 3), ∃ u1 u2,
        runTxns ((cs.flatMap fun c => [wdin c.1, cmd (.update c.2)]) ++ [cmd .finalize]) e1 = .next u1 ∧
        runTxns ((cs.flatMap fun c => [wdin c.1, cmd (.update c.2)]) ++ [cmd .finalize]) t = .next u2 ∧
        u1.h = u2.h ∧ u1.dvalid = u2.dvalid ∧ u1.len = u2.len

/-- 42_midstate.md R102: the serialized midstate is 105 bytes and taking it apart gives the midstate back. -/
def Obligations.SerializedMidstateRoundTrips : Prop :=
  ∀ m : MidstateRead, m.serialize.length = 105 ∧ MidstateRead.deserialize m.serialize = some m

/-- 40_compressor.md R69: restoring `H = S` with `LEN = 0` and pushing the 64 bytes of `B` leaves
`compress(S, B)` in `H`, for every state and block. That no command is rejected is read off the ghost flag
`everRejected`, the model's choice (log 4). -/
def Obligations.AnyCompressionThroughTheMidstate : Prop :=
  ∀ (e : State) (s : HashState) (b : Block), e.ready = false →
    ∃ t, runTxns (restore s (Vector.replicate 16 0) 0 0 ++ push b.toList) e = .next t ∧
      t.h = compress s b ∧ t.buflen = 0 ∧ t.len = 64 ∧ t.everRejected = e.everRejected
end

