-- ==== Sys2Proof/Laws/Decode.lean ====
section
/-! SUPPORT. The fields of a command word (spec/30_encoding.md R59): a word is its three fields, and
each field reads back. -/

namespace Sys2Proof

theorem commandWord_getLsbD (opc : BitVec 8) (opd : BitVec 6) (k : Nat) :
    (commandWord opc opd).getLsbD k =
      if k < 6 then opd.getLsbD k else if k < 24 then false else opc.getLsbD (k - 24) := by
  have h1 : (commandWord opc opd).getLsbD k = _ :=
    BitVec.getLsbD_append (x := opc ++ (0 : BitVec 18)) (y := opd) (i := k)
  rw [h1]
  by_cases h6 : k < 6
  · simp [h6]
  · have h2 := BitVec.getLsbD_append (x := opc) (y := (0 : BitVec 18)) (i := k - 6)
    simp only [h6, h2, if_false]
    by_cases h24 : k < 24
    · simp [h24, show k - 6 < 18 by omega]
    · simp [h24, show ¬ k - 6 < 18 by omega, show k - 6 - 18 = k - 24 by omega]

@[simp] theorem opcField_commandWord (opc : BitVec 8) (opd : BitVec 6) :
    opcField (commandWord opc opd) = opc := by
  apply BitVec.eq_of_getLsbD_eq
  intro k hk
  simp [opcField, commandWord_getLsbD, hk, show ¬ 24 + k < 6 by omega]

@[simp] theorem reservedField_commandWord (opc : BitVec 8) (opd : BitVec 6) :
    reservedField (commandWord opc opd) = 0 := by
  apply BitVec.eq_of_getLsbD_eq
  intro k hk
  simp [reservedField, BitVec.getLsbD_extractLsb', commandWord_getLsbD, show 6 + k < 24 by omega]

@[simp] theorem opdField_commandWord (opc : BitVec 8) (opd : BitVec 6) :
    opdField (commandWord opc opd) = opd := by
  apply BitVec.eq_of_getLsbD_eq
  intro k hk
  simp [opdField, commandWord_getLsbD, hk]

/-- A word whose reserved field is 0 is the command word of its own fields. -/
theorem commandWord_fields {c : Word} (h : reservedField c = 0) :
    commandWord (opcField c) (opdField c) = c := by
  apply BitVec.eq_of_getLsbD_eq
  intro k hk
  rw [commandWord_getLsbD]
  have hbit := congrArg (fun x => BitVec.getLsbD x (k - 6)) h
  simp only [reservedField, BitVec.getLsbD_extractLsb'] at hbit
  split
  · next h6 => simp [opdField, h6]
  · split
    · next h6 h24 => simpa [show k - 6 < 18 by omega, show 6 + (k - 6) = k by omega] using hbit.symm
    · next h6 h24 => simp [opcField, show k - 24 < 8 by omega, show 24 + (k - 24) = k by omega]

/-- The decoder on a word given by its fields (30_encoding.md R63). -/
theorem decodeWith_commandWord (midstate : Bool) (opc : BitVec 8) (opd : BitVec 6) :
    decodeWith midstate (commandWord opc opd) = opcodeMap midstate opc opd := by
  rw [decodeWith, if_pos (reservedField_commandWord opc opd), opcField_commandWord, opdField_commandWord]

theorem decodeWith_of_reserved {c : Word} (h : reservedField c ≠ 0) (midstate : Bool) :
    decodeWith midstate c = none := if_neg h

end Sys2Proof
end

