-- ==== Sys2Proof/Laws/State.lean ====
section
/-! SUPPORT. What the shared state updates do to each field, by `rfl`, so that no proof unfolds them:
raising an error, clearing it, reset. -/

namespace Sys2Proof.Machine

variable (code : ErrCode) (s : State)

@[simp] theorem raiseError_h : (raiseError code s).h = s.h := rfl

@[simp] theorem raiseError_buf : (raiseError code s).buf = s.buf := rfl

@[simp] theorem raiseError_buflen : (raiseError code s).buflen = s.buflen := rfl

@[simp] theorem raiseError_len : (raiseError code s).len = s.len := rfl

@[simp] theorem raiseError_ready : (raiseError code s).ready = s.ready := rfl

@[simp] theorem raiseError_dvalid : (raiseError code s).dvalid = s.dvalid := rfl

@[simp] theorem raiseError_err : (raiseError code s).err = true := rfl

@[simp] theorem raiseError_errcode : (raiseError code s).errcode = (if s.err then s.errcode else code) := rfl

@[simp] theorem raiseError_din : (raiseError code s).din = s.din := rfl

@[simp] theorem raiseError_pending : (raiseError code s).pending = s.pending := rfl

@[simp] theorem raiseError_reads : (raiseError code s).reads = s.reads := rfl

@[simp] theorem raiseError_everRejected : (raiseError code s).everRejected = true := rfl

@[simp] theorem clearError_h : (clearError s).h = s.h := rfl

@[simp] theorem clearError_buf : (clearError s).buf = s.buf := rfl

@[simp] theorem clearError_buflen : (clearError s).buflen = s.buflen := rfl

@[simp] theorem clearError_len : (clearError s).len = s.len := rfl

@[simp] theorem clearError_ready : (clearError s).ready = s.ready := rfl

@[simp] theorem clearError_dvalid : (clearError s).dvalid = s.dvalid := rfl

@[simp] theorem clearError_err : (clearError s).err = false := rfl

@[simp] theorem clearError_errcode : (clearError s).errcode = ErrCode.none := rfl

@[simp] theorem clearError_din : (clearError s).din = s.din := rfl

@[simp] theorem clearError_pending : (clearError s).pending = s.pending := rfl

@[simp] theorem clearError_reads : (clearError s).reads = s.reads := rfl

@[simp] theorem clearError_everRejected : (clearError s).everRejected = s.everRejected := rfl

@[simp] theorem platformReset_h : (platformReset s).h = iv := rfl

@[simp] theorem platformReset_buf : (platformReset s).buf = zeroBlock := rfl

@[simp] theorem platformReset_buflen : (platformReset s).buflen = 0 := rfl

@[simp] theorem platformReset_len : (platformReset s).len = 0 := rfl

@[simp] theorem platformReset_ready : (platformReset s).ready = true := rfl

@[simp] theorem platformReset_dvalid : (platformReset s).dvalid = false := rfl

@[simp] theorem platformReset_err : (platformReset s).err = false := rfl

@[simp] theorem platformReset_errcode : (platformReset s).errcode = ErrCode.none := rfl

@[simp] theorem platformReset_din : (platformReset s).din = 0 := rfl

@[simp] theorem platformReset_pending : (platformReset s).pending = s.pending := rfl

@[simp] theorem platformReset_reads : (platformReset s).reads = s.reads := rfl

@[simp] theorem platformReset_everRejected : (platformReset s).everRejected = s.everRejected := rfl

@[simp] theorem State.reset_h : (State.reset).h = iv := rfl

@[simp] theorem State.reset_buf : (State.reset).buf = zeroBlock := rfl

@[simp] theorem State.reset_buflen : (State.reset).buflen = 0 := rfl

@[simp] theorem State.reset_len : (State.reset).len = 0 := rfl

@[simp] theorem State.reset_ready : (State.reset).ready = true := rfl

@[simp] theorem State.reset_dvalid : (State.reset).dvalid = false := rfl

@[simp] theorem State.reset_err : (State.reset).err = false := rfl

@[simp] theorem State.reset_errcode : (State.reset).errcode = ErrCode.none := rfl

@[simp] theorem State.reset_din : (State.reset).din = 0 := rfl

@[simp] theorem State.reset_pending : (State.reset).pending = [] := rfl

@[simp] theorem State.reset_reads : (State.reset).reads = [] := rfl

@[simp] theorem State.reset_everRejected : (State.reset).everRejected = false := rfl

end Sys2Proof.Machine
end

