-- ==== Sys2Proof/Laws/Ops.lean ====
section
/-! SUPPORT. What each shared operation can do, said once: the guard list, absorbing bytes, the zero
fill and the padding (spec/41_stream.md R88, R95; spec/60_exceptions.md R118). -/

namespace Sys2Proof.Machine

section Guards

variable {checks : List (Bool × ErrCode)} {effect : State → State} {s t : State}

theorem guarded_nil : guarded [] effect s = .next (effect s) := rfl

theorem guarded_cons (failed : Bool) (code : ErrCode) :
    guarded ((failed, code) :: checks) effect s =
      if failed then .next (raiseError code s) else guarded checks effect s := rfl

theorem guarded_pass {code : ErrCode} :
    guarded ((false, code) :: checks) effect s = guarded checks effect s := rfl

theorem guarded_fail {code : ErrCode} :
    guarded ((true, code) :: checks) effect s = .next (raiseError code s) := rfl

/-- A guarded operation has its effect where every check passes, and else raises the code of a check
that failed. -/
theorem guarded_cases (checks : List (Bool × ErrCode)) (effect : State → State) (s : State) :
    ((∀ c ∈ checks, c.1 = false) ∧ guarded checks effect s = .next (effect s)) ∨
      ∃ code, (true, code) ∈ checks ∧ guarded checks effect s = .next (raiseError code s) := by
  induction checks with
  | nil => exact .inl ⟨by simp, rfl⟩
  | cons c cs ih =>
    obtain ⟨failed, code⟩ := c
    cases failed with
    | true => exact .inr ⟨code, by simp, rfl⟩
    | false =>
      rw [guarded_pass]
      obtain ⟨hall, heq⟩ | ⟨code', hmem, heq⟩ := ih
      · exact .inl ⟨by simpa using hall, heq⟩
      · exact .inr ⟨code', by simp [hmem], heq⟩

end Guards

section Absorb

variable (x : Byte) (xs : List Byte) (s : State)

/-- Absorbing a byte touches `H`, `BUF` and `BUFLEN` only (41_stream.md R88). -/
theorem absorb_frame :
    absorb x s = { s with
      h := (absorb x s).h, buf := (absorb x s).buf, buflen := (absorb x s).buflen } := by
  unfold absorb
  dsimp only
  split <;> rfl

theorem absorb_of_lt (hs : s.buflen.toNat + 1 < 64) :
    absorb x s = { s with buf := s.buf.set s.buflen.toNat x, buflen := s.buflen + 1 } := by
  unfold absorb
  simp [show ¬ s.buflen.toNat + 1 = 64 by omega]

theorem absorb_of_full (hs : s.buflen.toNat + 1 = 64) :
    absorb x s = { s with
      h := compress s.h (s.buf.set s.buflen.toNat x), buf := zeroBlock, buflen := 0 } := by
  unfold absorb
  simp [hs]

@[simp] theorem absorbAll_nil : absorbAll [] s = s := rfl

@[simp] theorem absorbAll_cons : absorbAll (x :: xs) s = absorbAll xs (absorb x s) := rfl

theorem absorbAll_append (ys : List Byte) :
    absorbAll (xs ++ ys) s = absorbAll ys (absorbAll xs s) := by
  simp [absorbAll, List.foldl_append]

theorem absorbAll_frame :
    absorbAll xs s = { s with
      h := (absorbAll xs s).h, buf := (absorbAll xs s).buf, buflen := (absorbAll xs s).buflen } := by
  induction xs generalizing s with
  | nil => rfl
  | cons x xs ih =>
    have h2 := absorb_frame x s
    rw [absorbAll_cons]
    generalize absorb x s = t at h2 ⊢
    rw [ih t, h2]

/-- The block with the bytes `xs` written from position `n` on. -/
def fill (b : Block) (n : Nat) (xs : List Byte) : Block :=
  Vector.ofFn fun j : Fin 64 => if n ≤ j.val ∧ j.val < n + xs.length then xs.getD (j.val - n) 0 else b[j]

theorem fill_nil (b : Block) (n : Nat) : fill b n [] = b := by
  apply Vector.ext
  intro j hj
  simp [fill, show ¬ (n ≤ j ∧ j < n) by omega]

theorem fill_cons (b : Block) (n : Nat) (hn : n < 64) :
    fill (b.set n x) (n + 1) xs = fill b n (x :: xs) := by
  apply Vector.ext
  intro j hj
  simp only [fill, Vector.getElem_ofFn, List.length_cons, Fin.getElem_fin, Vector.getElem_set]
  rcases Nat.lt_trichotomy j n with h | h | h
  · rw [if_neg (by omega), if_neg (by omega), if_neg (by omega)]
  · subst h
    simp
  · obtain ⟨k, rfl⟩ : ∃ k, j = n + 1 + k := ⟨j - (n + 1), by omega⟩
    by_cases hk : k < xs.length
    · simp [show n + 1 ≤ n + 1 + k ∧ n + 1 + k < n + 1 + xs.length by omega,
        show n ≤ n + 1 + k ∧ n + 1 + k < n + (xs.length + 1) by omega,
        show n + 1 + k - n = k + 1 by omega]
    · rw [if_neg (by omega), if_neg (by omega), if_neg (by omega)]

theorem buflen_add_one (hs : s.buflen.toNat + 1 < 64) :
    (s.buflen + 1).toNat = s.buflen.toNat + 1 := by
  rw [BitVec.toNat_add]
  exact Nat.mod_eq_of_lt hs

/-- Bytes that do not complete a block land behind the valid bytes (41_stream.md R88). -/
theorem absorbAll_of_lt (hs : s.buflen.toNat + xs.length < 64) :
    absorbAll xs s = { s with
      buf := fill s.buf s.buflen.toNat xs, buflen := s.buflen + BitVec.ofNat 6 xs.length } := by
  induction xs generalizing s with
  | nil => simp [fill_nil]
  | cons x xs ih =>
    simp only [List.length_cons] at hs
    have h1 := buflen_add_one s (by omega)
    rw [absorbAll_cons, absorb_of_lt x s (by omega), ih _ (by simp only [h1]; omega)]
    simp only [h1, fill_cons x xs s.buf _ s.buflen.isLt, List.length_cons]
    congr 1
    rw [BitVec.add_assoc, BitVec.ofNat_add, BitVec.add_comm (BitVec.ofNat 6 xs.length)]
    rfl

/-- The byte that completes a block compresses it and clears the buffer (41_stream.md R88). -/
theorem absorbAll_of_full (hne : xs ≠ []) (hs : s.buflen.toNat + xs.length = 64) :
    absorbAll xs s = { s with
      h := compress s.h (fill s.buf s.buflen.toNat xs), buf := zeroBlock, buflen := 0 } := by
  induction xs generalizing s with
  | nil => exact absurd rfl hne
  | cons x xs ih =>
    simp only [List.length_cons] at hs
    rw [absorbAll_cons, ← fill_cons x xs s.buf _ s.buflen.isLt]
    by_cases hx : xs = []
    · subst hx
      simp only [List.length_nil] at hs
      rw [absorb_of_full x s (by omega)]
      simp [fill_nil]
    · have hpos : 0 < xs.length := List.length_pos_iff.mpr hx
      have h1 := buflen_add_one s (by omega)
      rw [absorb_of_lt x s (by omega), ih _ hx (by simp only [h1]; omega)]
      simp only [h1]

/-- The number of zeros that bring `BUFLEN` to 56. -/
def zerosTo56 (n : Nat) : Nat := (120 - n) % 64

/-- The loop of FINALIZE absorbs zeros until `BUFLEN` is 56; 64 turns are enough (41_stream.md
R95). -/
theorem zeroFill_eq (fuel : Nat) (hf : zerosTo56 s.buflen.toNat ≤ fuel) :
    zeroFill fuel s = absorbAll (List.replicate (zerosTo56 s.buflen.toNat) 0) s := by
  induction fuel generalizing s with
  | zero =>
    rw [Nat.le_zero.mp hf]
    rfl
  | succ n ih =>
    have hlt := s.buflen.isLt
    unfold zeroFill
    split
    · next h56 => simp [zerosTo56, h56]
    · next h56 =>
      have hne : s.buflen.toNat ≠ 56 := fun h => h56 (BitVec.eq_of_toNat_eq (by simp [h]))
      have hnext : zerosTo56 (absorb 0 s).buflen.toNat + 1 = zerosTo56 s.buflen.toNat := by
        by_cases hfull : s.buflen.toNat + 1 = 64
        · rw [absorb_of_full 0 s hfull]
          have h63 : s.buflen.toNat = 63 := by omega
          simp [zerosTo56, h63]
        · rw [absorb_of_lt 0 s (by omega), buflen_add_one s (by omega)]
          simp only [zerosTo56]
          omega
      rw [ih _ (by omega), ← hnext, List.replicate_succ, absorbAll_cons]

/-- The padding of FINALIZE as one run of absorbed bytes (41_stream.md R93, R95). -/
theorem absorbPadding_eq :
    absorbPadding s = absorbAll
      ([(0x80 : Byte)] ++ List.replicate (zerosTo56 (absorb 0x80 s).buflen.toNat) (0x00 : Byte) ++ be64Bytes (s.len <<< 3)) s := by
  rw [absorbAll_append, absorbAll_append]
  show absorbAll _ (zeroFill 64 (absorb 0x80 s)) = _
  rw [zeroFill_eq _ 64 (Nat.le_of_lt (Nat.mod_lt _ (by decide)))]
  rfl

theorem absorbPadding_frame :
    absorbPadding s = { s with
      h := (absorbPadding s).h, buf := (absorbPadding s).buf, buflen := (absorbPadding s).buflen } := by
  rw [absorbPadding_eq]
  exact absorbAll_frame _ s

@[simp] theorem absorbAll_len : (absorbAll xs s).len = s.len := by
  rw [absorbAll_frame]

@[simp] theorem absorbAll_ready : (absorbAll xs s).ready = s.ready := by
  rw [absorbAll_frame]

@[simp] theorem absorbAll_dvalid : (absorbAll xs s).dvalid = s.dvalid := by
  rw [absorbAll_frame]

@[simp] theorem absorbAll_err : (absorbAll xs s).err = s.err := by
  rw [absorbAll_frame]

@[simp] theorem absorbAll_errcode : (absorbAll xs s).errcode = s.errcode := by
  rw [absorbAll_frame]

@[simp] theorem absorbAll_din : (absorbAll xs s).din = s.din := by
  rw [absorbAll_frame]

@[simp] theorem absorbAll_pending : (absorbAll xs s).pending = s.pending := by
  rw [absorbAll_frame]

@[simp] theorem absorbAll_reads : (absorbAll xs s).reads = s.reads := by
  rw [absorbAll_frame]

@[simp] theorem absorbAll_everRejected : (absorbAll xs s).everRejected = s.everRejected := by
  rw [absorbAll_frame]

@[simp] theorem absorbPadding_len : (absorbPadding s).len = s.len := by
  rw [absorbPadding_frame]

@[simp] theorem absorbPadding_ready : (absorbPadding s).ready = s.ready := by
  rw [absorbPadding_frame]

@[simp] theorem absorbPadding_dvalid : (absorbPadding s).dvalid = s.dvalid := by
  rw [absorbPadding_frame]

@[simp] theorem absorbPadding_err : (absorbPadding s).err = s.err := by
  rw [absorbPadding_frame]

@[simp] theorem absorbPadding_errcode : (absorbPadding s).errcode = s.errcode := by
  rw [absorbPadding_frame]

@[simp] theorem absorbPadding_din : (absorbPadding s).din = s.din := by
  rw [absorbPadding_frame]

@[simp] theorem absorbPadding_pending : (absorbPadding s).pending = s.pending := by
  rw [absorbPadding_frame]

@[simp] theorem absorbPadding_reads : (absorbPadding s).reads = s.reads := by
  rw [absorbPadding_frame]

@[simp] theorem absorbPadding_everRejected : (absorbPadding s).everRejected = s.everRejected := by
  rw [absorbPadding_frame]

@[simp] theorem be64Bytes_length (l : BitVec 64) : (be64Bytes l).length = 8 := rfl

@[simp] theorem wordBytes_length (w : Word) : (wordBytes w).length = 4 := rfl

theorem updateBytes_length (nb : BitVec 3) (w : Word) (hnb : nb.toNat ≤ 4) :
    (updateBytes nb w).length = nb.toNat := by
  simp [updateBytes, hnb]

end Absorb

end Sys2Proof.Machine
end

