-- ==== Sys2Proof/Laws/Exec.lean ====
section
/-! SUPPORT. What a command, a transaction and a step can do, said once: every command is its checks
and its effect (spec/60_exceptions.md R115, R118); every transaction answers a next state
(spec/20_memory.md R41). -/

namespace Sys2Proof.Machine

/-- The checks of a command, in order (60_exceptions.md R115, R116, R118). -/
def checks : Instr → State → List (Bool × ErrCode)
  | .update nb, s =>
    [(decide (nb.toNat > 4), .illegalCmd), (!s.ready, .notReady), (lenExceeds s.len nb.toNat, .lenOvf)]
  | .finalize, s => [(!s.ready, .notReady)]
  | .clrerr, _ => []
  | .resume, s => [(s.ready, .stillReady), (lenExceeds s.len 0, .lenOvf)]
  | .reinit, s => [(s.ready, .stillReady)]
  | .ldh _, s => [(s.ready, .stillReady)]
  | .ldbuf _, s => [(s.ready, .stillReady)]
  | .ldlenlo, s => [(s.ready, .stillReady)]
  | .ldlenhi, s => [(s.ready, .stillReady)]

/-- The effect of an accepted command. -/
def effect : Instr → State → State
  | .update nb, s => { absorbAll (updateBytes nb s.din) s with len := s.len + nb.setWidth 64 }
  | .finalize, s => { absorbPadding s with ready := false, dvalid := true }
  | .reinit, s =>
    { s with h := iv, buf := zeroBlock, buflen := 0, len := 0, ready := true, dvalid := false }
  | .clrerr, s => clearError s
  | .ldh idx, s => { s with h := s.h.set idx s.din, dvalid := false }
  | .ldbuf idx, s => { s with buf := setBufWord s.buf idx s.din, dvalid := false }
  | .ldlenlo, s => { s with len := setLenLo s.len s.din, dvalid := false }
  | .ldlenhi, s => { s with len := setLenHi s.len s.din, dvalid := false }
  | .resume, s =>
    { s with buflen := s.len.setWidth 6, buf := zeroFrom (s.len.toNat % 64) s.buf, ready := true, dvalid := false }

theorem exec_eq_guarded (i : Instr) (s : State) : exec i s = guarded (checks i s) (effect i) s := by
  cases i <;> rfl

/-- A command has its effect where every check passes, and else raises the code of a check that
failed. -/
theorem exec_cases (i : Instr) (s : State) :
    ((∀ c ∈ checks i s, c.1 = false) ∧ exec i s = .next (effect i s)) ∨
      ∃ code, (true, code) ∈ checks i s ∧ exec i s = .next (raiseError code s) := by
  rw [exec_eq_guarded]
  exact guarded_cases _ _ _

theorem exec_next (i : Instr) (s : State) : ∃ t, exec i s = .next t := by
  obtain ⟨-, h⟩ | ⟨_, -, h⟩ := exec_cases i s <;> exact ⟨_, h⟩

/-- A command whose checks pass is accepted. -/
theorem exec_of_checks {i : Instr} {s : State} (h : ∀ c ∈ checks i s, c.1 = false) :
    exec i s = .next (effect i s) := by
  obtain ⟨-, heq⟩ | ⟨code, hmem, -⟩ := exec_cases i s
  · exact heq
  · exact absurd (h _ hmem) (by simp)

/-- The first check that fails names the error (60_exceptions.md R118). -/
theorem exec_of_first_check {i : Instr} {s : State} {code : ErrCode} {rest : List (Bool × ErrCode)}
    (h : checks i s = (true, code) :: rest) : exec i s = .next (raiseError code s) := by
  rw [exec_eq_guarded, h, guarded_fail]

theorem lenExceeds_eq_false {l : Counter} {n : Nat} : lenExceeds l n = false ↔ l.toNat + n ≤ Config.lenMax := by
  simp [lenExceeds]

theorem lenExceeds_eq_true {l : Counter} {n : Nat} : lenExceeds l n = true ↔ Config.lenMax < l.toNat + n := by
  simp [lenExceeds]

/-- When UPDATE is accepted (41_stream.md R89). -/
theorem exec_update_accepted {nb : BitVec 3} {s : State} (hnb : nb.toNat ≤ 4) (hr : s.ready = true)
    (hl : s.len.toNat + nb.toNat ≤ Config.lenMax) : exec (.update nb) s = .next (effect (.update nb) s) :=
  exec_of_checks (by simp [checks, hr, lenExceeds_eq_false.mpr hl, hnb])

/-- When FINALIZE is accepted (41_stream.md R95). -/
theorem exec_finalize_accepted {s : State} (hr : s.ready = true) :
    exec .finalize s = .next (effect .finalize s) := exec_of_checks (by simp [checks, hr])

/-- When RESUME is accepted (42_midstate.md R108). -/
theorem exec_resume_accepted {s : State} (hr : s.ready = false) (hl : s.len.toNat ≤ Config.lenMax) :
    exec .resume s = .next (effect .resume s) :=
  exec_of_checks (by simp [checks, hr, lenExceeds_eq_false.mpr (show s.len.toNat + 0 ≤ _ from hl)])

/-- When REINIT and the load commands are accepted (41_stream.md R98; 42_midstate.md R103). -/
theorem exec_accepted_of_finalized {i : Instr} {s : State} (hi : checks i s = [(s.ready, .stillReady)])
    (hr : s.ready = false) : exec i s = .next (effect i s) := exec_of_checks (by simp [hi, hr])

theorem effect_din (i : Instr) (s : State) : (effect i s).din = s.din := by
  cases i <;> simp [effect]

theorem effect_pending (i : Instr) (s : State) : (effect i s).pending = s.pending := by
  cases i <;> simp [effect]

theorem effect_reads (i : Instr) (s : State) : (effect i s).reads = s.reads := by
  cases i <;> simp [effect]

theorem effect_everRejected (i : Instr) (s : State) : (effect i s).everRejected = s.everRejected := by
  cases i <;> simp [effect]

theorem executeCommand_some {c : Word} {i : Instr} (h : decode c = some i) (s : State) :
    executeCommand c s = exec i s := by
  simp [executeCommand, h]

theorem executeCommand_none {c : Word} (h : decode c = none) (s : State) :
    executeCommand c s = .next (raiseError .illegalCmd s) := by
  simp [executeCommand, h]

/-- A register is found at its own offset (10_state.md R30). -/
theorem Reg.at?_eq_some {off : Offset} {r : Reg} (hoff : off.val = r.offset) : Reg.at? off = some r := by
  unfold Reg.at?
  dsimp only
  cases r with
  | h i =>
    have := i.isLt
    simp only [Reg.offset] at hoff
    simp [hoff, show ¬ (32 + 4 * i.val = 4) by omega,
      show ¬ (32 + 4 * i.val = 8) by omega, show ¬ (32 + 4 * i.val = 12) by omega,
      show ¬ (32 + 4 * i.val = 16) by omega, show 32 + 4 * i.val < 64 by omega]
  | buf j =>
    have := j.isLt
    simp only [Reg.offset] at hoff
    simp [hoff, show ¬ (64 + 4 * j.val = 4) by omega, show ¬ (64 + 4 * j.val = 8) by omega,
      show ¬ (64 + 4 * j.val = 12) by omega, show ¬ (64 + 4 * j.val = 16) by omega,
      show ¬ (64 + 4 * j.val < 64) by omega, show 64 + 4 * j.val < 128 by omega]
  | digest i =>
    have := i.isLt
    simp only [Reg.offset] at hoff
    simp [hoff, show ¬ (128 + 4 * i.val = 4) by omega, show ¬ (128 + 4 * i.val = 8) by omega,
      show ¬ (128 + 4 * i.val = 12) by omega, show ¬ (128 + 4 * i.val = 16) by omega,
      show ¬ (128 + 4 * i.val < 64) by omega, show ¬ (128 + 4 * i.val < 128) by omega,
      show 128 + 4 * i.val < 160 by omega]
  | cmd => simp [hoff, Reg.offset]
  | din => simp [hoff, Reg.offset]
  | status => simp [hoff, Reg.offset]
  | lenLo => simp [hoff, Reg.offset]
  | lenHi => simp [hoff, Reg.offset]

theorem wellFormedAccess_iff (off : Offset) (size : Nat) :
    wellFormedAccess off size = true ↔ size = 4 ∧ off.val % 4 = 0 := by
  unfold wellFormedAccess
  rw [Bool.and_eq_true, decide_eq_true_eq, decide_eq_true_eq]
  rfl

/-- A write is a command, a write of `DIN`, or rejected (20_memory.md R43). -/
theorem regWrite_cases (off : Offset) (size : Nat) (v : Word) (s : State) :
    (wellFormedAccess off size = true ∧ Reg.at? off = some .cmd ∧ regWrite off size v s = executeCommand v s) ∨
    (wellFormedAccess off size = true ∧ Reg.at? off = some .din ∧ regWrite off size v s = .next { s with din := v }) ∨
    ((wellFormedAccess off size = false ∨ (Reg.at? off ≠ some .cmd ∧ Reg.at? off ≠ some .din)) ∧
      regWrite off size v s = .next (raiseError .badAccess s)) := by
  unfold regWrite writeReg
  cases hw : wellFormedAccess off size with
  | false => exact .inr (.inr ⟨.inl rfl, rfl⟩)
  | true =>
    simp only [if_true]
    split
    · next h => exact .inl ⟨trivial, h, rfl⟩
    · next h => exact .inr (.inl ⟨trivial, h, rfl⟩)
    · next h1 h2 => exact .inr (.inr ⟨.inr ⟨h1, h2⟩, rfl⟩)

/-- What a transaction can do (20_memory.md R42, R43; 30_encoding.md R63). -/
theorem runTxn_cases (t : Txn) (s : State) :
    (∃ off size, t = .read off size ∧ runTxn t s = .next { s with reads := s.reads ++ [regRead off size s] }) ∨
    (t = .reset ∧ runTxn t s = .next (platformReset s)) ∨
    (∃ off v i, t = .write off 4 v ∧ Reg.at? off = some .cmd ∧ decode v = some i ∧ runTxn t s = exec i s) ∨
    (∃ off v, t = .write off 4 v ∧ Reg.at? off = some .din ∧ runTxn t s = .next { s with din := v }) ∨
    (∃ off size v code, t = .write off size v ∧ runTxn t s = .next (raiseError code s)) := by
  cases t with
  | read off size => exact .inl ⟨off, size, rfl, rfl⟩
  | reset => exact .inr (.inl ⟨rfl, rfl⟩)
  | write off size v =>
    refine .inr (.inr ?_)
    obtain ⟨hw, hr, h⟩ | ⟨hw, hr, h⟩ | ⟨-, h⟩ := regWrite_cases off size v s
    · obtain ⟨rfl, -⟩ := (wellFormedAccess_iff off size).mp hw
      cases hd : decode v with
      | some i => exact .inl ⟨off, v, i, rfl, hr, hd, h.trans (executeCommand_some hd s)⟩
      | none => exact .inr (.inr ⟨off, 4, v, .illegalCmd, rfl, h.trans (executeCommand_none hd s)⟩)
    · obtain ⟨rfl, -⟩ := (wellFormedAccess_iff off size).mp hw
      exact .inr (.inl ⟨off, v, rfl, hr, h⟩)
    · exact .inr (.inr ⟨off, size, v, .badAccess, rfl, h⟩)

theorem runTxn_next (t : Txn) (s : State) : ∃ s', runTxn t s = .next s' := by
  obtain ⟨_, _, -, h⟩ | ⟨-, h⟩ | ⟨_, _, i, -, -, -, h⟩ | ⟨_, _, -, -, h⟩ | ⟨_, _, _, _, -, h⟩ := runTxn_cases t s
  · exact ⟨_, h⟩
  · exact ⟨_, h⟩
  · rw [h]
    exact exec_next i s
  · exact ⟨_, h⟩
  · exact ⟨_, h⟩

theorem runTxns_cons_next {t : Txn} {ts : List Txn} {s s' : State} (h : runTxn t s = .next s') :
    runTxns (t :: ts) s = runTxns ts s' := by
  simp [runTxns, h]

theorem runTxns_append {ts us : List Txn} {s s' : State} (h : runTxns ts s = .next s') :
    runTxns (ts ++ us) s = runTxns us s' := by
  induction ts generalizing s with
  | nil =>
    cases h
    rfl
  | cons t ts ih =>
    obtain ⟨r, hr⟩ := runTxn_next t s
    rw [List.cons_append, runTxns_cons_next hr]
    exact ih (by rwa [runTxns_cons_next hr] at h)

theorem runTxns_next (ts : List Txn) (s : State) : ∃ s', runTxns ts s = .next s' := by
  induction ts generalizing s with
  | nil => exact ⟨s, rfl⟩
  | cons t ts ih =>
    obtain ⟨r, hr⟩ := runTxn_next t s
    rw [runTxns_cons_next hr]
    exact ih r

theorem step_nil {s : State} (h : s.pending = []) : step s = .next s := by
  simp [step, h]

theorem step_cons {s : State} {t : Txn} {rest : List Txn} (h : s.pending = t :: rest) :
    step s = runTxn t { s with pending := rest } := by
  simp [step, h]

end Sys2Proof.Machine
end

