-- ==== Sys2Proof/Laws/PerInstr.lean ====
section
/-! SUPPORT. Per-instruction facts about the commands as syntax. `ReservedBits`: the reserved field of
every command word is 0 (spec/30_encoding.md R59). -/

namespace Sys2Proof.Laws.ReservedBits

/-- Bits 23:6 of the command's word are zero (30_encoding.md R59). -/
def Statement (i : Instr) : Prop := reservedField (encode i) = 0

theorem update (nb : BitVec 3) : Statement (.update nb) := reservedField_commandWord _ _
theorem finalize : Statement .finalize := reservedField_commandWord _ _
theorem reinit : Statement .reinit := reservedField_commandWord _ _
theorem clrerr : Statement .clrerr := reservedField_commandWord _ _
theorem ldh (idx : Fin 8) : Statement (.ldh idx) := reservedField_commandWord _ _
theorem ldbuf (idx : Fin 16) : Statement (.ldbuf idx) := reservedField_commandWord _ _
theorem ldlenlo : Statement .ldlenlo := reservedField_commandWord _ _
theorem ldlenhi : Statement .ldlenhi := reservedField_commandWord _ _
theorem resume : Statement .resume := reservedField_commandWord _ _

end Sys2Proof.Laws.ReservedBits
end

