-- ==== Sys2Proof/Tests/Slice0.lean ====
section
/-! SUPPORT. The model's own tests and, for every statement with hypotheses, a witness that meets them
together. Expected values come from spec/95_test_vectors.md (the section is named at each test) or from
the encoding tables of spec/30_encoding.md. -/

namespace Sys2Proof.Tests

open Sys2Proof Sys2Proof.Machine

set_option maxRecDepth 4000

/-- The state an operation answers. -/
def after : Host.Outcome State Fault Refusal → State
  | .next s => s
  | .fault _ => State.reset
  | .refused _ => State.reset

/-- A Ready state with these buffered bytes, this count and this data word. -/
def ready (bytes : List Byte) (len : Counter) (din : Word) : State :=
  { State.reset with buf := blockAt bytes 0, buflen := BitVec.ofNat 6 bytes.length, len, din }

/-- A Finalized state with a valid digest, this count and this data word. -/
def finalized (len : Counter) (din : Word) : State :=
  { State.reset with ready := false, dvalid := true, len, din }

/-- Right after reset with one transaction to come. -/
def queued (t : Txn) : State := { State.reset with pending := [t] }

/-- The padded block of "abc" (95_test_vectors.md 3.2). -/
def abcBlock : Block := blockAt ([0x61, 0x62, 0x63, 0x80] ++ List.replicate 59 (0x00 : Byte) ++ [0x18]) 0

/-! ## Well-formedness -/

theorem test_wf_refuses_five : (Instr.update 5).wf = false := by decide
theorem test_wf_refuses_six : (Instr.update 6).wf = false := by decide
theorem test_wf_refuses_seven : (Instr.update 7).wf = false := by decide

/-! ## Decoding: words written out bit by bit from 30_encoding.md R60, R62 -/

theorem test_decode_update : decode 0b00000001_00000000_00000000_00000100 = some (.update 4) := by decide
theorem test_decode_finalize : decode 0b00000010_00000000_00000000_00000000 = some .finalize := by decide
theorem test_decode_reinit : decode 0b00000011_00000000_00000000_00000000 = some .reinit := by decide
theorem test_decode_clrerr : decode 0b00000100_00000000_00000000_00000000 = some .clrerr := by decide
theorem test_decode_ldh : decode 0b00010000_00000000_00000000_00000110 = some (.ldh 6) := by decide
theorem test_decode_ldbuf : decode 0b00010001_00000000_00000000_00001101 = some (.ldbuf 13) := by decide
theorem test_decode_ldlenlo : decode 0b00010010_00000000_00000000_00000000 = some .ldlenlo := by decide
theorem test_decode_ldlenhi : decode 0b00010011_00000000_00000000_00000000 = some .ldlenhi := by decide
theorem test_decode_resume : decode 0b00010100_00000000_00000000_00000000 = some .resume := by decide

/-- The illegal words of 95_test_vectors.md 3.11. -/
theorem test_decode_illegal :
    ([0x01000005, 0x01000008, 0x01000040, 0x02000001, 0x04800000, 0x05000000, 0x0f000000, 0x1000000f, 0x11000010,
      0x12000001, 0x15000000, 0xff000000, 0x00000000] : List Word).all (fun c => decode c == none) = true := by
  decide

theorem test_decode_without_midstate :
    decodeWith false 0x10000000 = none ∧ decodeWith false 0x14000000 = none ∧
      decodeWith false 0x04000000 = some .clrerr := by decide

theorem test_decodeTableWord :
    decodeTableWord 32 0x11000003 = some (.ldbuf 3) ∧ decodeTableWord 8 0x11000003 = none := by decide

/-! ## Commands -/

/-- 95_test_vectors.md 3.5, first row. -/
theorem test_update_appends :
    let t := after (exec (.update 3) (ready [] 0 0x61626300))
    bufWord t.buf 0 = 0x61626300 ∧ statusWord t = 0x00030001 ∧ t.len = 3 ∧ t.h = iv := by decide

/-- 95_test_vectors.md 3.5, third row: the command completes a block. -/
theorem test_update_completes_block :
    let t := after (exec (.update 4) (ready (List.replicate 62 0x61) 62 0x62636465))
    t.h = #v[0xcaa67f36, 0x32db7ceb, 0xbe05820a, 0x503f8631, 0x43a0dc31, 0x6bc2b030, 0x98186cef, 0xd9d8a9fa] ∧
      bufWord t.buf 0 = 0x64650000 ∧ bufWord t.buf 15 = 0 ∧ t.buflen = 2 ∧ t.len = 66 := by decide +kernel

/-- 95_test_vectors.md 3.6, `n = 0`. -/
theorem test_finalize_empty :
    let t := after (exec .finalize State.reset)
    t.h = #v[0xe3b0c442, 0x98fc1c14, 0x9afbf4c8, 0x996fb924, 0x27ae41e4, 0x649b934c, 0xa495991b, 0x7852b855] ∧
      statusWord t = 0x00000002 := by decide +kernel

/-- 95_test_vectors.md 3.6, `n = 56`: two padding blocks. -/
theorem test_finalize_two_blocks :
    let t := after (exec .finalize (ready (List.replicate 56 0x61) 56 0))
    t.h = #v[0xb35439a4, 0xac6f0948, 0xb6d6f9e3, 0xc6af0f5f, 0x590ce20f, 0x1bde7090, 0xef797068, 0x6ec6738a] ∧
      t.len = 56 ∧ t.buf = zeroBlock := by decide +kernel

/-- 95_test_vectors.md 3.7, first row. -/
theorem test_reinit_while_ready : statusWord (after (exec .reinit State.reset)) = 0x00000305 := by decide

/-- 95_test_vectors.md 3.7, third row: the recorded error stays. -/
theorem test_reinit_keeps_error :
    let t := after (exec .reinit { finalized 3 0 with err := true, errcode := .notReady, h := Vector.replicate 8 0 })
    statusWord t = 0x00000205 ∧ t.h = iv ∧ t.len = 0 := by decide

/-- 43_control.md R110, its example. -/
theorem test_clrerr :
    let s := after (exec (.update 1) (finalized 0 0))
    statusWord s = 0x00000206 ∧ statusWord (after (exec .clrerr s)) = 0x00000002 := by decide

/-- 95_test_vectors.md 3.8, second row. -/
theorem test_ldh :
    let t := after (exec (.ldh 5) (finalized 3 0x01234567))
    t.h[5] = 0x01234567 ∧ t.h[4] = 0x510e527f ∧ statusWord t = 0 ∧ regRead 0x080 4 t = 0 := by decide

/-- 95_test_vectors.md 3.8, third row. -/
theorem test_ldbuf :
    let t := after (exec (.ldbuf 0) (finalized 3 0x61626300))
    regRead 0x040 4 t = 0x61626300 ∧ t.buf[0] = 0x61 ∧ t.buflen = 0 := by decide

/-- 42_midstate.md R106, its example. -/
theorem test_ldlenlo :
    let t := after (exec .ldlenlo (finalized 3 0x00000040))
    regRead 0x00C 4 t = 0x40 ∧ regRead 0x010 4 t = 0 := by decide

/-- 42_midstate.md R107, its example. -/
theorem test_ldlenhi : (after (exec .ldlenhi (finalized 3 1))).len = 0x100000003 := by decide

/-- 95_test_vectors.md 3.8: the bytes past `BUFLEN` are zeroed. -/
theorem test_resume :
    let t := after (exec .resume { finalized 3 0 with buf := Vector.replicate 64 0xff })
    statusWord t = 0x00030001 ∧ bufWord t.buf 0 = 0xffffff00 ∧ bufWord t.buf 1 = 0 := by decide

/-- 95_test_vectors.md 3.8: a count past the limit. -/
theorem test_resume_past_limit :
    statusWord (after (exec .resume (finalized 0x2000000000000000 0))) = 0x00000406 := by decide

/-! ## The compressor -/

/-- 95_test_vectors.md 3.1, the row of 12345678. -/
theorem test_sigma_functions :
    smallSigma0 0x12345678 = 0xe7fce6ee ∧ smallSigma1 0x12345678 = 0xa1f78649 ∧
      bigSigma0 0x12345678 = 0x66146474 ∧ bigSigma1 0x12345678 = 0x3561abda := by decide

/-- 95_test_vectors.md 3.1. -/
theorem test_ch_maj :
    ch 0xff00ff00 0x12345678 0x9abcdef0 = 0x12bc56f0 ∧ maj 0xff00ff00 0x12345678 0x9abcdef0 = 0x9a34de70 := by
  decide

/-- 95_test_vectors.md 3.2. -/
theorem test_schedule :
    (schedule abcBlock)[16] = 0x61626380 ∧ (schedule abcBlock)[17] = 0x000f0000 ∧
      (schedule abcBlock)[63] = 0x12b1edeb := by decide +kernel

/-- The ends of the table and of its first row (95_test_vectors.md section 2; 40_compressor.md R76). -/
theorem test_round_constants :
    roundConstant 0 = 0x428a2f98 ∧ roundConstant 7 = 0xab1c5ed5 ∧ roundConstant 8 = 0xd807aa98 ∧
      roundConstant 63 = 0xc67178f2 := by decide

/-- 95_test_vectors.md 3.3, `t = 0`. -/
theorem test_round :
    round (roundConstant 0) 0x61626380 (initWorking iv) =
      ⟨0x5d6aebcd, 0x6a09e667, 0xbb67ae85, 0x3c6ef372, 0xfa2a4622, 0x510e527f, 0x9b05688c, 0x1f83d9ab⟩ := by decide

/-- 95_test_vectors.md 3.4, third row. -/
theorem test_compress :
    compress (Vector.replicate 8 0xffffffff) (Vector.replicate 64 0xff) =
      #v[0x0598127a, 0xaf11706e, 0x77401fff, 0xd730c549, 0x0b84c867, 0xa98c6ca3, 0xd7f3c0f9, 0x06a78b79] := by
  decide +kernel

/-! ## The register window, the host and the step -/

/-- 95_test_vectors.md 3.10. -/
theorem test_reads_at_reset :
    regRead 0x000 4 State.reset = 0 ∧ regRead 0x014 4 State.reset = 0 ∧ regRead 0x001 4 State.reset = 0 ∧
      regRead 0x008 4 State.reset = 1 ∧ regRead 0x020 4 State.reset = 0x6a09e667 ∧
      regRead 0x03C 4 State.reset = 0x5be0cd19 ∧ regRead 0x080 4 State.reset = 0 := by decide

/-- 95_test_vectors.md 3.9. -/
theorem test_rejected_writes :
    statusWord (after (runTxn (.write 0x002 4 0x02000000) State.reset)) = 0x00000505 ∧
      statusWord (after (runTxn (.write 0x0A0 4 5) State.reset)) = 0x00000505 ∧
      (after (runTxn (.write 0x004 2 0x11111111) State.reset)).din = 0 ∧
      statusWord (after (runTxn (.write 0x000 4 0x01000005) (finalized 0 0))) = 0x00000106 := by decide

theorem test_step_runs_the_placed_word :
    let t := after (step ((finalized 3 7).withFetchWord 32 0x10000002))
    t.h[2] = 7 ∧ t.pending = [] := by decide

/-- 30_encoding.md R67. -/
theorem test_push_expands :
    (AsmOp.push [0x61, 0x62, 0x63, 0x64, 0x65]).expand =
      [.write 0x004 4 0x61626364, .write 0x000 4 0x01000004, .write 0x004 4 0x65000000, .write 0x000 4 0x01000001] ∧
    AsmOp.rddigest.expand.length = 8 ∧ AsmOp.save.expand.length = 27 := by decide

/-- 95_test_vectors.md 3.8, the serialized midstate: its bytes 0, 32, 34, 96 and 104. -/
theorem test_serialize :
    let m := (readMidstate { ready [0x61, 0x61] 66 0 with h := iv.set 0 0xdf5bb81c }).serialize
    m[0]? = some 0xdf ∧ m[32]? = some 0x61 ∧ m[34]? = some 0x00 ∧ m[96]? = some 0x02 ∧ m[104]? = some 0x42 := by
  decide

/-! ## Witnesses: each shows a state and operands that meet all hypotheses of the statement it is named
after, at the ends of their ranges -/

theorem witness_DecodeOfEncodeIsTheCommand :
    (Instr.update 0).wf = true ∧ (Instr.update 4).wf = true ∧ (Instr.ldbuf 15).wf = true := by decide

theorem witness_EncodeOfDecodeIsTheWord : decode 0x01000004 = some (.update 4) := by decide

theorem witness_IllegalWordsAreExactlyThese :
    decode 0x00ffffff = none ∧ decode 0x05000000 = none ∧ decode 0x0f000000 = none ∧ decode 0x15000000 = none ∧
      decode 0x01000040 = none ∧ decode 0x04800000 = none ∧ decode 0x01000005 = none ∧ decode 0x01000038 = none ∧
      decode 0x10000008 = none ∧ decode 0x11000010 = none ∧ decode 0x1400003f = none := by decide

theorem witness_IllegalWordIsRejected :
    (queued (.write 0x000 4 0)).pending = .write 0x000 4 0 :: [] ∧ decode 0 = none := by decide

theorem witness_StepRunsTheDecodedCommand :
    (queued (.write 0x000 4 0x02000000)).pending = .write 0x000 4 0x02000000 :: [] ∧
      decode 0x02000000 = some .finalize := by decide

theorem witness_IdleStepChangesNothing : (finalized 0 0).pending = [] := by decide

/-- One line a clause of the statement. -/
theorem witness_RegisterReadValues :
    ((2 : Nat) ≠ 4 ∧ (0x002 : Offset).val % 4 ≠ 0 ∧ (0x0FF : Offset).val % 4 ≠ 0) ∧
    ((0x020 : Offset).val = 0x020 + 4 * (0 : Fin 8).val ∧ (0x03C : Offset).val = 0x020 + 4 * (7 : Fin 8).val) ∧
    ((0x040 : Offset).val = 0x040 + 4 * (0 : Fin 16).val ∧ (0x07C : Offset).val = 0x040 + 4 * (15 : Fin 16).val) ∧
    ((0x080 : Offset).val = 0x080 + 4 * (0 : Fin 8).val ∧ (0x09C : Offset).val = 0x080 + 4 * (7 : Fin 8).val) ∧
    ((0x000 : Offset).val = 0 ∧ 0x010 < (0x014 : Offset).val ∧ (0x01C : Offset).val < 0x020 ∧
      0x0A0 ≤ (0x0A0 : Offset).val ∧ 0x0A0 ≤ (0x0FC : Offset).val) ∧
    (queued (.read 0x008 4)).pending = .read 0x008 4 :: [] := by decide

/-- One line a clause of the statement. -/
theorem witness_WritesReachOnlyCmdAndDin :
    ((queued (.write 0x000 2 0)).pending = .write 0x000 2 0 :: [] ∧ (2 : Nat) ≠ 4) ∧
    ((queued (.write 0x001 4 0)).pending = .write 0x001 4 0 :: [] ∧ (0x001 : Offset).val % 4 ≠ 0) ∧
    ((queued (.write 0x008 4 0)).pending = .write 0x008 4 0 :: [] ∧ 4 < (0x008 : Offset).val) ∧
    ((queued (.write 0x0FC 4 0)).pending = .write 0x0FC 4 0 :: [] ∧ 4 < (0x0FC : Offset).val) ∧
    ((queued (.write 0x000 4 0)).pending = .write 0x000 4 0 :: [] ∧ (0x000 : Offset).val = 0) ∧
    ((queued (.write 0x004 4 0)).pending = .write 0x004 4 0 :: [] ∧ (0x004 : Offset).val = 4) := by decide

theorem witness_WindowDecodesItsAddresses :
    Config.base + 256 ≤ Config.base + 256 ∧
      offsetOf 0x1000 0x1000 = some 0 ∧ offsetOf 0x1000 0x10FF = some 255 ∧ offsetOf 0x1000 0x0FFF = none ∧
      offsetOf 0x1000 0x1100 = none := ⟨Nat.le_refl _, by decide⟩

theorem witness_DigestRegisters :
    (∃ t, runTxns rdDigest (finalized 0 0) = .next t) ∧ (finalized 0 0).dvalid = true ∧
      (∃ t, runTxns rdDigest State.reset = .next t) ∧ State.reset.dvalid = false :=
  ⟨⟨_, rfl⟩, rfl, ⟨_, rfl⟩, rfl⟩

theorem witness_ResetSetsEveryElement : (queued .reset).pending = .reset :: [] := by decide

theorem witness_RaisedErrorKeepsTheFirstCode :
    State.reset.err = false ∧ (raiseError .lenOvf State.reset).err = true := by decide

theorem witness_RejectionIsPrecise :
    State.reset.everRejected = false ∧
      runTxn (.write 0x008 4 0) State.reset = .next (raiseError .badAccess State.reset) ∧
      (raiseError .badAccess State.reset).everRejected = true := ⟨rfl, rfl, rfl⟩

/-- The states of each clause; the last two lines are the counts at the limit. -/
theorem witness_MisuseTable :
    (finalized 0 0).ready = false ∧ State.reset.ready = true ∧ (0 : BitVec 3).toNat ≤ 4 ∧ (4 : BitVec 3).toNat ≤ 4 ∧
      ((ready [] (2 ^ 61 - 5) 0).len.toNat + (4 : BitVec 3).toNat ≤ 2 ^ 61 - 1) ∧
      (finalized (2 ^ 61 - 1) 0).len.toNat ≤ 2 ^ 61 - 1 := by decide

/-- One line a clause of the statement. -/
theorem witness_ChecksAreOrdered :
    ((2 : Nat) ≠ 4 ∧ (0x002 : Offset).val % 4 ≠ 0) ∧
    decode 0x01000005 = none ∧
    ((4 : BitVec 3).toNat ≤ 4 ∧ (finalized (2 ^ 61 - 1) 0).ready = false) ∧
    (ready [] (2 ^ 61) 0).ready = true ∧
    ((1 : BitVec 3).toNat ≤ 4 ∧ (ready [] (2 ^ 61 - 1) 0).ready = true ∧
      2 ^ 61 - 1 < (ready [] (2 ^ 61 - 1) 0).len.toNat + (1 : BitVec 3).toNat) ∧
    ((finalized (2 ^ 61) 0).ready = false ∧ 2 ^ 61 - 1 < (finalized (2 ^ 61) 0).len.toNat) := by decide

theorem witness_CountPastTheLimitIsRejected :
    (2 : BitVec 3).toNat ≤ 4 ∧ (ready [] (2 ^ 61 - 2) 0).ready = true ∧
      2 ^ 61 - 1 < (ready [] (2 ^ 61 - 2) 0).len.toNat + (2 : BitVec 3).toNat := by decide

theorem witness_ErrIsStickyUntilClrerrOrReset :
    (∃ t, step { queued (.write 0x000 4 0x04000000) with err := true, errcode := .badAccess } = .next t) ∧
      (∃ t, step { queued .reset with err := true, errcode := .badAccess } = .next t) :=
  ⟨⟨_, rfl⟩, ⟨_, rfl⟩⟩

/-- One line a clause of the statement. -/
theorem witness_GhostFlagNeverClears :
    (∃ t, step { queued .reset with everRejected := true } = .next t) ∧
      (∃ t, step (queued (.write 0x000 4 0)) = .next t ∧ (queued (.write 0x000 4 0)).err = false ∧ t.err = true) :=
  ⟨⟨_, rfl⟩, ⟨_, rfl, rfl, rfl⟩⟩

theorem witness_UpdateWithinTheBlock :
    (ready [] 0 0).buflen.toNat + (0 : BitVec 3).toNat < 64 ∧
      ((ready (List.replicate 59 0) (2 ^ 61 - 5) 0).ready = true ∧
        (ready (List.replicate 59 0) (2 ^ 61 - 5) 0).len.toNat + (4 : BitVec 3).toNat ≤ 2 ^ 61 - 1 ∧
        (ready (List.replicate 59 0) (2 ^ 61 - 5) 0).buflen.toNat + (4 : BitVec 3).toNat < 64) ∧
      (ready (List.replicate 63 0) 63 0).buflen.toNat + (0 : BitVec 3).toNat < 64 := by decide

theorem witness_UpdateCompletesTheBlock :
    (64 ≤ (ready (List.replicate 63 0) 63 0).buflen.toNat + (1 : BitVec 3).toNat) ∧
      ((ready (List.replicate 60 0) 60 0).ready = true ∧
        (ready (List.replicate 60 0) 60 0).len.toNat + (4 : BitVec 3).toNat ≤ 2 ^ 61 - 1 ∧
        64 ≤ (ready (List.replicate 60 0) 60 0).buflen.toNat + (4 : BitVec 3).toNat) := by decide

/-- A Ready state with a queue satisfies the invariant. -/
theorem inv_queued (t : Txn) : Inv (queued t) where
  buflen_of_ready := by simp [queued, State.reset]
  buf_of_ready := by simp [queued, State.reset, zeroBlock]
  len_of_ready := by simp [queued, State.reset]
  ready_of_dvalid := by simp [queued, State.reset]
  buf_of_dvalid := by simp [queued, State.reset]
  buflen_of_finalized := by simp [queued, State.reset]
  errcode_none := by simp [queued, State.reset]
  everRejected_of_err := by simp [queued, State.reset]

theorem witness_UpdateOfNoBytes :
    (Inv (queued .reset) ∧ (queued .reset).ready = true) ∧ (finalized 0 0).ready = false :=
  ⟨⟨inv_queued _, rfl⟩, rfl⟩

theorem witness_AlignedWordLandsUnchanged :
    ((ready [] 0 0).ready = true ∧ (ready [] 0 0).len.toNat + 4 ≤ 2 ^ 61 - 1 ∧
      (ready [] 0 0).buflen.toNat = 4 * (0 : Fin 16).val) ∧
    ((ready (List.replicate 60 1) 60 0).ready = true ∧ (ready (List.replicate 60 1) 60 0).len.toNat + 4 ≤ 2 ^ 61 - 1 ∧
      (ready (List.replicate 60 1) 60 0).buflen.toNat = 4 * (15 : Fin 16).val) := by decide

theorem witness_FinalizeInOneBlock :
    ((ready [] 0 0).ready = true ∧ (ready [] 0 0).buflen.toNat ≤ 55) ∧
      ((ready (List.replicate 55 1) 55 0).ready = true ∧ (ready (List.replicate 55 1) 55 0).buflen.toNat ≤ 55) := by
  decide

theorem witness_FinalizeInTwoBlocks :
    ((ready (List.replicate 56 1) 56 0).ready = true ∧ 56 ≤ (ready (List.replicate 56 1) 56 0).buflen.toNat) ∧
      ((ready (List.replicate 63 1) 63 0).ready = true ∧ 56 ≤ (ready (List.replicate 63 1) 63 0).buflen.toNat) := by
  decide

theorem witness_ReinitReturnsToCreated : State.reset.ready = true ∧ (finalized 5 0).ready = false := by decide

theorem witness_ClrerrClearsTheError :
    (Inv (queued .reset) ∧ (queued .reset).err = false) ∧
      ∃ t, exec .clrerr (raiseError .lenOvf State.reset) = .next t ∧ (raiseError .lenOvf State.reset).err = true ∧
        t.err = false := ⟨⟨inv_queued _, rfl⟩, ⟨_, rfl, rfl, rfl⟩⟩

theorem witness_LdhLoadsOneWord : State.reset.ready = true ∧ (finalized 5 1).ready = false := by decide

theorem witness_LdbufLoadsOneWord : State.reset.ready = true ∧ (finalized 5 2).ready = false := by decide

theorem witness_LdlenLoadsOneHalf : State.reset.ready = true ∧ (finalized 5 3).ready = false := by decide

theorem witness_ResumeMakesReady :
    State.reset.ready = true ∧
      ((finalized (2 ^ 61) 0).ready = false ∧ 2 ^ 61 - 1 < (finalized (2 ^ 61) 0).len.toNat) ∧
      ((finalized (2 ^ 61 - 1) 0).ready = false ∧ (finalized (2 ^ 61 - 1) 0).len.toNat ≤ 2 ^ 61 - 1) := by decide

theorem witness_OnlyItsWriteAndResetChangeDin :
    (∃ t, step (queued (.write 0x004 4 9)) = .next t ∧ t.din ≠ (queued (.write 0x004 4 9)).din) ∧
      (∃ t, step { queued .reset with din := 9 } = .next t ∧ t.din ≠ ({ queued .reset with din := 9 } : State).din) :=
  ⟨⟨_, rfl, by decide⟩, ⟨_, rfl, by decide⟩⟩

/-- An LDH, a REINIT and a reset that change `H`. -/
theorem witness_WritersOfH :
    (∃ t, step { finalized 0 9 with pending := [.write 0x000 4 0x10000000] } = .next t ∧ t.h ≠ iv) ∧
      (∃ t, step { finalized 0 9 with pending := [.write 0x000 4 0x03000000], h := Vector.replicate 8 0 } = .next t ∧
        t.h ≠ Vector.replicate 8 0) ∧
      (∃ t, step { queued .reset with h := Vector.replicate 8 0 } = .next t ∧ t.h ≠ Vector.replicate 8 0) :=
  ⟨⟨_, rfl, by decide⟩, ⟨_, rfl, by decide⟩, ⟨_, rfl, by decide⟩⟩

theorem witness_ReadyTransitions :
    (∃ t, exec .clrerr State.reset = .next t ∧ State.reset.ready = true) ∧
      (∃ t, exec .resume (finalized (2 ^ 61 - 1) 0) = .next t ∧ (finalized (2 ^ 61 - 1) 0).ready = false) :=
  ⟨⟨_, rfl, rfl⟩, ⟨_, rfl, rfl⟩⟩

/-- A valid digest, and a write of `DIN` to come. -/
def digestThenWrite : State := { finalized 3 0 with pending := [.write 0x004 4 1] }

theorem inv_digestThenWrite : Inv digestThenWrite where
  buflen_of_ready := by simp [digestThenWrite, finalized]
  buf_of_ready := by simp [digestThenWrite, finalized]
  len_of_ready := by simp [digestThenWrite, finalized]
  ready_of_dvalid := by simp [digestThenWrite, finalized]
  buf_of_dvalid := by simp [digestThenWrite, finalized, State.reset]
  buflen_of_finalized := by simp [digestThenWrite, finalized, State.reset]
  errcode_none := by simp [digestThenWrite, finalized, State.reset]
  everRejected_of_err := by simp [digestThenWrite, finalized, State.reset]

theorem witness_DvalidMeansTheLastDigest :
    Inv digestThenWrite ∧ ∃ t, step digestThenWrite = .next t ∧ t.dvalid = true :=
  ⟨inv_digestThenWrite, ⟨_, rfl, rfl⟩⟩

theorem witness_EveryStepKeepsTheInvariant :
    Inv (queued (.write 0x004 4 1)) ∧ ∃ t, step (queued (.write 0x004 4 1)) = .next t :=
  ⟨inv_queued _, ⟨_, rfl⟩⟩

theorem witness_SigmaFunctionsByBit : (0 : Nat) < 32 ∧ (31 : Nat) < 32 := by decide

theorem witness_ChooseAndMajorityByBit : (0 : Nat) < 32 ∧ (31 : Nat) < 32 := by decide

theorem witness_RoundByRoundIsCompress : (0 : Nat) < 64 ∧ (63 : Nat) < 64 := by decide

theorem witness_PaddingFillsOneOrTwoBlocks :
    0 ≤ 2 ^ 61 - 1 ∧ (2 ^ 61 - 1 ≤ 2 ^ 61 - 1 ∧ 56 ≤ (2 ^ 61 - 1) % 64) ∧ 55 % 64 ≤ 55 ∧ 56 ≤ 56 % 64 := by decide

theorem witness_CreatedContextIsEmpty : (finalized 7 0).ready = false := by decide

/-- "abc" as the message of a context. -/
theorem holds_abc : Holds (ready [0x61, 0x62, 0x63] 3 0x64656667) [0x61, 0x62, 0x63] where
  ready := rfl
  short := by decide
  len := by decide
  h := by decide
  buflen := by decide
  buf := by decide

theorem witness_UpdateExtendsTheMessage :
    Holds (ready [0x61, 0x62, 0x63] 3 0x64656667) [0x61, 0x62, 0x63] ∧ (4 : BitVec 3).toNat ≤ 4 ∧
      ([0x61, 0x62, 0x63] : List Byte).length + (4 : BitVec 3).toNat ≤ 2 ^ 61 - 1 := ⟨holds_abc, by decide⟩

theorem witness_FinalizeGivesSha256 : Holds (ready [0x61, 0x62, 0x63] 3 0x64656667) [0x61, 0x62, 0x63] := holds_abc

theorem witness_HashOperationReadsTheDigest :
    Holds (ready [] 0 5) [] ∧ ([0x61, 0x62, 0x63] : List Byte).length ≤ 2 ^ 61 - 1 :=
  ⟨⟨rfl, by decide, by decide, by decide, by decide, by decide⟩, by decide⟩

/-- "abc" as 2 + 1 bytes and as 3 (95_test_vectors.md S4). -/
theorem witness_ChunkingInvariance :
    let cs : List (Word × BitVec 3) := [(0x61620000, 2), (0x63000000, 1)]
    let ds : List (Word × BitVec 3) := [(0x61626300, 3)]
    State.reset.ready = true ∧ (∀ c ∈ cs, c.2.toNat ≤ 4) ∧ (∀ d ∈ ds, d.2.toNat ≤ 4) ∧
      cs.flatMap (fun c => (wordBytes c.1).take c.2.toNat) = ds.flatMap (fun d => (wordBytes d.1).take d.2.toNat) ∧
      State.reset.len.toNat + (cs.flatMap fun c => (wordBytes c.1).take c.2.toNat).length ≤ 2 ^ 61 - 1 :=
  ⟨rfl, by simp, by simp, by decide, by simp [wordBytes, State.reset]⟩

theorem witness_MidstateRoundTrip :
    Inv (queued .reset) ∧ (queued .reset).ready = true ∧ (finalized 9 0).ready = false := ⟨inv_queued _, rfl, rfl⟩

theorem witness_AnyCompressionThroughTheMidstate : (finalized (2 ^ 61) 0).ready = false := by decide

end Sys2Proof.Tests
end

section
/-! PROOF. Facts that the statements about the state share: the word of a decoded command, what a
transaction and a step can do with every cause named, absorbed bytes counted one by one. -/

namespace Sys2Proof

/-! ### The word of a decoded command (30_encoding.md R62, R63) -/

theorem decodeN_eq_some {i j : Instr} {opd : BitVec 6} : decodeN j opd = some i ↔ opd = 0 ∧ j = i := by
  simp [decodeN]

theorem encode_of_decodeB {i : Instr} {opd : BitVec 6} (h : decodeB opd = some i) :
    encode i = commandWord 0x01 opd := by
  unfold decodeB at h
  split at h
  · next hle =>
    cases h
    have hopd : (opd.extractLsb' 0 3).setWidth 6 = opd := by
      apply BitVec.eq_of_toNat_eq
      simp
      omega
    rw [encode, hopd]
  · cases h

theorem encode_of_decodeX3 {i : Instr} {opd : BitVec 6} (h : decodeX3 opd = some i) :
    encode i = commandWord 0x10 opd := by
  unfold decodeX3 at h
  split at h
  · cases h
    simp [encode]
  · cases h

theorem encode_of_decodeX4 {i : Instr} {opd : BitVec 6} (h : decodeX4 opd = some i) :
    encode i = commandWord 0x11 opd := by
  unfold decodeX4 at h
  split at h
  · cases h
    simp [encode]
  · cases h

theorem encode_of_decodeN {i j : Instr} {opc : BitVec 8} {opd : BitVec 6} (hj : encode j = commandWord opc 0)
    (h : decodeN j opd = some i) : encode i = commandWord opc opd := by
  obtain ⟨rfl, rfl⟩ := decodeN_eq_some.mp h
  exact hj

/-- A row of the opcode map decodes to the command that has the row's word. -/
theorem encode_of_opcodeMap {i : Instr} {opc : BitVec 8} {opd : BitVec 6}
    (h : opcodeMap Config.hasMidstate opc opd = some i) : encode i = commandWord opc opd := by
  have hopc (n : Nat) (hn : opc.toNat = n) : opc = BitVec.ofNat 8 n := by simp [← hn]
  unfold opcodeMap at h
  split at h
  case h_1 hn => exact hopc _ hn ▸ encode_of_decodeB h
  case h_5 hn => exact hopc _ hn ▸ encode_of_decodeX3 h
  case h_6 hn => exact hopc _ hn ▸ encode_of_decodeX4 h
  case h_2 hn | h_3 hn | h_4 hn | h_7 hn | h_8 hn | h_9 hn => exact hopc _ hn ▸ encode_of_decodeN rfl h
  case h_10 => cases h

/-- A word that decodes is the word of its command. -/
theorem encode_of_decode {c : Word} {i : Instr} (h : decode c = some i) : encode i = c := by
  unfold decode decodeWith at h
  split at h
  · next hres => rw [encode_of_opcodeMap h, commandWord_fields hres]
  · cases h

theorem eq_clrerr_word {c : Word} (h : decode c = some .clrerr) : c = 0x04000000 := (encode_of_decode h).symm

theorem eq_finalize_word {c : Word} (h : decode c = some .finalize) : c = 0x02000000 := (encode_of_decode h).symm

end Sys2Proof

namespace Sys2Proof.Machine

/-! ### What a transaction and a step can do -/

theorem Reg.offset_of_at? {off : Offset} {r : Reg} (hal : off.val % 4 = 0) (h : Reg.at? off = some r) :
    off.val = r.offset := by
  unfold Reg.at? at h
  dsimp only at h
  split_ifs at h <;> cases h <;> simp only [Reg.offset] <;> omega

/-- No check of a command raises the code NONE. -/
theorem code_ne_none_of_mem_checks {i : Instr} {s : State} {failed : Bool} {code : ErrCode}
    (h : (failed, code) ∈ checks i s) : code ≠ .none := by
  rintro rfl
  cases i <;> simp [checks] at h

/-- What the checks of UPDATE ask (41_stream.md R89, R90). -/
theorem update_passes_iff {nb : BitVec 3} {s : State} : (∀ k ∈ checks (.update nb) s, k.1 = false) ↔
    nb.toNat ≤ 4 ∧ s.ready = true ∧ s.len.toNat + nb.toNat ≤ Config.lenMax := by
  simp [checks, lenExceeds_eq_false]

/-- What the checks of RESUME ask (42_midstate.md R108). -/
theorem resume_passes_iff {s : State} : (∀ k ∈ checks .resume s, k.1 = false) ↔
    s.ready = false ∧ s.len.toNat ≤ Config.lenMax := by
  simp [checks, lenExceeds_eq_false]

/-- A command's next state: its effect where every check passes, else the error of a check that failed. -/
theorem exec_result {i : Instr} {s t : State} (h : exec i s = .next t) :
    ((∀ k ∈ checks i s, k.1 = false) ∧ t = effect i s) ∨
      ∃ code, (true, code) ∈ checks i s ∧ t = raiseError code s := by
  obtain ⟨hchk, heq⟩ | ⟨code, hmem, heq⟩ := exec_cases i s
  · exact .inl ⟨hchk, Host.Outcome.next.inj (h.symm.trans heq)⟩
  · exact .inr ⟨code, hmem, Host.Outcome.next.inj (h.symm.trans heq)⟩

/-- The next states of a transaction, each with its cause: a read, the platform's reset, an accepted
command, a write of `DIN`, a rejected write. -/
inductive TxnEffect (s : State) : Txn → State → Prop where
  | read (off : Offset) (size : Nat) :
      TxnEffect s (.read off size) { s with reads := s.reads ++ [regRead off size s] }
  | reset : TxnEffect s .reset (platformReset s)
  | accepted {c : Word} {i : Instr} (hdec : decode c = some i) (hchk : ∀ k ∈ checks i s, k.1 = false) :
      TxnEffect s (.write 0x000 4 c) (effect i s)
  | din (v : Word) : TxnEffect s (.write 0x004 4 v) { s with din := v }
  | rejected (off : Offset) (size : Nat) (v : Word) {code : ErrCode} (hcode : code ≠ .none) :
      TxnEffect s (.write off size v) (raiseError code s)

theorem executeCommand_effect {c : Word} {s t : State} (h : executeCommand c s = .next t) :
    TxnEffect s (.write 0x000 4 c) t := by
  cases hdec : decode c with
  | none =>
    rw [executeCommand_none hdec] at h
    cases h
    exact .rejected _ _ _ (by decide)
  | some i =>
    rw [executeCommand_some hdec] at h
    obtain ⟨hchk, rfl⟩ | ⟨code, hmem, rfl⟩ := exec_result h
    · exact .accepted hdec hchk
    · exact .rejected _ _ _ (code_ne_none_of_mem_checks hmem)

theorem runTxn_effect {x : Txn} {s t : State} (h : runTxn x s = .next t) : TxnEffect s x t := by
  cases x with
  | read off size => cases h; exact .read off size
  | reset => cases h; exact .reset
  | write off size v =>
    have hoff {r : Reg} {o : Offset} (hw : wellFormedAccess off size = true) (hr : Reg.at? off = some r)
        (ho : o.val = r.offset) : size = 4 ∧ off = o := by
      obtain ⟨hsize, hal⟩ := (wellFormedAccess_iff off size).mp hw
      exact ⟨hsize, Fin.ext ((Reg.offset_of_at? hal hr).trans ho.symm)⟩
    obtain ⟨hw, hr, heq⟩ | ⟨hw, hr, heq⟩ | ⟨-, heq⟩ := regWrite_cases off size v s
    · obtain ⟨rfl, rfl⟩ := hoff (o := 0x000) hw hr rfl
      exact executeCommand_effect (heq.symm.trans h)
    · obtain ⟨rfl, rfl⟩ := hoff (o := 0x004) hw hr rfl
      cases heq.symm.trans h
      exact .din v
    · cases heq.symm.trans h
      exact .rejected off size v (by decide)

/-- A step is idle, or the first transaction of the queue has one of its effects. -/
theorem step_effect {s t : State} (h : step s = .next t) :
    (s.pending = [] ∧ t = s) ∨
      ∃ x rest, s.pending = x :: rest ∧ TxnEffect { s with pending := rest } x t := by
  cases hp : s.pending with
  | nil =>
    rw [step_nil hp] at h
    cases h
    exact .inl ⟨rfl, rfl⟩
  | cons x rest =>
    rw [step_cons hp] at h
    exact .inr ⟨x, rest, rfl, runTxn_effect h⟩

/-! ### Absorbed bytes, one by one (41_stream.md R88) -/

/-- Every byte at or past `BUFLEN` is zero (10_state.md R29 (b)). -/
def TailZero (s : State) : Prop := ∀ j : Fin 64, s.buflen.toNat ≤ j.val → s.buf[j] = 0

theorem zeroBlock_getElem (j : Fin 64) : zeroBlock[j] = 0 := by
  simp [zeroBlock]

/-- With `BUFLEN` 0 the zero tail is the whole buffer. -/
theorem TailZero.buf_eq_zeroBlock {s : State} (hz : TailZero s) (h0 : s.buflen = 0) : s.buf = zeroBlock := by
  apply Vector.ext
  intro j hj
  exact (hz ⟨j, hj⟩ (by simp [h0])).trans (zeroBlock_getElem ⟨j, hj⟩).symm

/-- A byte moves `BUFLEN` on by one, modulo the 64 bytes of a block. -/
theorem absorb_buflen (x : Byte) (s : State) : (absorb x s).buflen = s.buflen + 1 := by
  by_cases hfull : s.buflen.toNat + 1 = 64
  · rw [absorb_of_full x s hfull]
    apply BitVec.eq_of_toNat_eq
    simp [hfull]
  · rw [absorb_of_lt x s (by omega)]

theorem absorb_tailZero {s : State} (x : Byte) (hz : TailZero s) : TailZero (absorb x s) := by
  intro j hj
  by_cases hfull : s.buflen.toNat + 1 = 64
  · rw [absorb_of_full x s hfull]
    exact zeroBlock_getElem j
  · have hlt : s.buflen.toNat + 1 < 64 := by omega
    rw [absorb_buflen, buflen_add_one s hlt] at hj
    rw [absorb_of_lt x s hlt]
    have hne : s.buflen.toNat ≠ j.val := by omega
    simpa [Vector.getElem_set, hne] using hz j (by omega)

theorem absorbAll_buflen (xs : List Byte) (s : State) :
    (absorbAll xs s).buflen = s.buflen + BitVec.ofNat 6 xs.length := by
  induction xs generalizing s with
  | nil => simp
  | cons x xs ih =>
    rw [absorbAll_cons, ih, absorb_buflen, List.length_cons, BitVec.ofNat_add, BitVec.add_assoc,
      BitVec.add_comm 1]
    rfl

theorem absorbAll_tailZero {s : State} (xs : List Byte) (hz : TailZero s) : TailZero (absorbAll xs s) := by
  induction xs generalizing s with
  | nil => exact hz
  | cons x xs ih => exact ih (absorb_tailZero x hz)

/-- The padding ends at a block boundary (41_stream.md R93). -/
theorem absorbPadding_buflen (s : State) : (absorbPadding s).buflen = 0 := by
  rw [absorbPadding_eq, absorbAll_buflen]
  apply BitVec.eq_of_toNat_eq
  have hlt := s.buflen.isLt
  simp [absorb_buflen, zerosTo56]
  omega

/-- Bytes that reach the end of the block change `H` by one compression. -/
theorem absorbAll_h_of_ge (xs : List Byte) (s : State) (hge : 64 ≤ s.buflen.toNat + xs.length)
    (hle : xs.length ≤ 64) : ∃ b, (absorbAll xs s).h = compress s.h b := by
  have hlt := s.buflen.isLt
  set n := 64 - s.buflen.toNat with hn
  have hlen : (xs.take n).length = n := by simp; omega
  have hne : xs.take n ≠ [] := by
    intro h
    simp [h] at hlen
    omega
  refine ⟨fill s.buf s.buflen.toNat (xs.take n), ?_⟩
  rw [← List.take_append_drop n xs, absorbAll_append, absorbAll_of_full _ s hne (by omega)]
  rw [absorbAll_of_lt _ _ (by simp; omega)]
  simp

end Sys2Proof.Machine
end

section
/-! PROOF. The invariant: it holds at reset, and every effect of a transaction keeps it
(spec/10_state.md R29). -/

namespace Sys2Proof.Machine

/-- The invariant does not speak of the queue, the noted values or `DIN`. -/
theorem inv_of_same {s : State} (hi : Inv s) (pending : List Txn) (reads : List Word) (din : Word) :
    Inv { s with pending := pending, reads := reads, din := din } :=
  { hi with }

/-- The invariant of a Ready engine: the clauses about a Finalized one and a valid digest say nothing. -/
theorem inv_of_ready {s : State} (hr : s.ready = true) (hd : s.dvalid = false)
    (hbuflen : s.buflen.toNat = s.len.toNat % 64) (hz : TailZero s) (hl : s.len.toNat ≤ Config.lenMax)
    (hcode : s.errcode = .none ↔ s.err = false) (hever : s.err = true → s.everRejected = true) : Inv s where
  buflen_of_ready _ := hbuflen
  buf_of_ready _ := hz
  len_of_ready _ := hl
  ready_of_dvalid h := by simp [hd] at h
  buf_of_dvalid h := by simp [hd] at h
  buflen_of_finalized h := by simp [hr] at h
  errcode_none := hcode
  everRejected_of_err := hever

/-- The invariant of a Finalized engine: the clauses about a Ready one say nothing. -/
theorem inv_of_finalized {s : State} (hr : s.ready = false) (hbuflen : s.buflen = 0)
    (hbuf : s.dvalid = true → s.buf = zeroBlock) (hcode : s.errcode = .none ↔ s.err = false)
    (hever : s.err = true → s.everRejected = true) : Inv s where
  buflen_of_ready h := by simp [hr] at h
  buf_of_ready h := by simp [hr] at h
  len_of_ready h := by simp [hr] at h
  ready_of_dvalid _ := hr
  buf_of_dvalid := hbuf
  buflen_of_finalized _ := hbuflen
  errcode_none := hcode
  everRejected_of_err := hever

theorem inv_reset : Inv State.reset :=
  inv_of_ready rfl rfl rfl (fun j _ => zeroBlock_getElem j) (Nat.zero_le _) (by simp) (by simp)

theorem inv_platformReset (s : State) : Inv (platformReset s) :=
  { inv_reset with everRejected_of_err := fun h => by cases h }

/-- A rejection keeps the invariant: it touches the error fields alone, and its code is not NONE. -/
theorem inv_raiseError {s : State} {code : ErrCode} (hi : Inv s) (hcode : code ≠ .none) :
    Inv (raiseError code s) :=
  { hi with
    errcode_none := by
      have hiff := hi.errcode_none
      cases herr : s.err <;> simp_all
    everRejected_of_err := fun _ => rfl }

theorem inv_clearError {s : State} (hi : Inv s) : Inv (clearError s) :=
  { hi with
    errcode_none := by simp
    everRejected_of_err := fun h => by cases h }

theorem dvalid_of_ready {s : State} (hi : Inv s) (hr : s.ready = true) : s.dvalid = false := by
  by_contra hd
  simp [hi.ready_of_dvalid (by simpa using hd)] at hr

/-- A load changes `H`, `BUF` or `LEN` of a Finalized engine and clears `DVALID` (42_midstate.md R103). -/
theorem inv_load {s : State} (hi : Inv s) (hr : s.ready = false) (h : HashState) (buf : Block) (len : Counter) :
    Inv { s with h := h, buf := buf, len := len, dvalid := false } :=
  inv_of_finalized hr (hi.buflen_of_finalized hr) (by simp) hi.errcode_none hi.everRejected_of_err

theorem inv_reinit {s : State} (hi : Inv s) : Inv (effect .reinit s) :=
  { inv_reset with
    errcode_none := hi.errcode_none
    everRejected_of_err := hi.everRejected_of_err }

/-- RESUME computes `BUFLEN` from `LEN` and zeroes the tail (42_midstate.md R108). -/
theorem inv_resume {s : State} (hi : Inv s) (hl : s.len.toNat ≤ Config.lenMax) : Inv (effect .resume s) := by
  have hz : TailZero (effect .resume s) := by
    intro j hj
    have hge : ¬ j.val < s.len.toNat % 64 := by simpa [effect] using hj
    simp [effect, zeroFrom, hge]
  apply inv_of_ready
  case hr => simp [effect]
  case hd => simp [effect]
  case hbuflen => simp [effect]
  case hz => exact hz
  case hl => simpa [effect] using hl
  case hcode => simpa [effect] using hi.errcode_none
  case hever => simpa [effect] using hi.everRejected_of_err

theorem absorbPadding_tailZero {s : State} (hz : TailZero s) : TailZero (absorbPadding s) := by
  rw [absorbPadding_eq]
  exact absorbAll_tailZero _ hz

/-- FINALIZE leaves `BUFLEN` 0 behind a zero tail, so the buffer is cleared. -/
theorem inv_finalize {s : State} (hi : Inv s) (hr : s.ready = true) : Inv (effect .finalize s) := by
  have hbuflen := absorbPadding_buflen s
  have hbuf := (absorbPadding_tailZero (hi.buf_of_ready hr)).buf_eq_zeroBlock hbuflen
  apply inv_of_finalized
  case hr => simp [effect]
  case hbuflen => simpa [effect] using hbuflen
  case hbuf => simp [effect, hbuf]
  case hcode => simpa [effect] using hi.errcode_none
  case hever => simpa [effect] using hi.everRejected_of_err

/-- UPDATE moves `BUFLEN` and `LEN` on together and keeps the zero tail. -/
theorem inv_update {s : State} {nb : BitVec 3} (hi : Inv s) (hnb : nb.toNat ≤ 4) (hr : s.ready = true)
    (hl : s.len.toNat + nb.toNat ≤ Config.lenMax) : Inv (effect (.update nb) s) := by
  have hlen : (s.len + nb.setWidth 64).toNat = s.len.toNat + nb.toNat := by
    simp only [Config.lenMax] at hl
    rw [BitVec.toNat_add, BitVec.toNat_setWidth]
    omega
  have hbuflen : (absorbAll (updateBytes nb s.din) s).buflen.toNat = (s.len.toNat + nb.toNat) % 64 := by
    rw [absorbAll_buflen, updateBytes_length nb s.din hnb, BitVec.toNat_add, BitVec.toNat_ofNat,
      hi.buflen_of_ready hr]
    omega
  apply inv_of_ready
  case hr => simpa [effect] using hr
  case hd => simpa [effect] using dvalid_of_ready hi hr
  case hbuflen => simpa only [effect, hlen] using hbuflen
  case hz => exact absorbAll_tailZero (updateBytes nb s.din) (hi.buf_of_ready hr)
  case hl => simpa only [effect, hlen] using hl
  case hcode => simpa [effect] using hi.errcode_none
  case hever => simpa [effect] using hi.everRejected_of_err

theorem inv_effect {i : Instr} {s : State} (hi : Inv s) (hchk : ∀ k ∈ checks i s, k.1 = false) :
    Inv (effect i s) := by
  cases i with
  | update nb =>
    obtain ⟨hnb, hr, hl⟩ := update_passes_iff.mp hchk
    exact inv_update hi hnb hr hl
  | finalize => exact inv_finalize hi (by simpa [checks] using hchk)
  | reinit => exact inv_reinit hi
  | clrerr => exact inv_clearError hi
  | ldh idx => exact inv_load hi (by simpa [checks] using hchk) _ s.buf s.len
  | ldbuf idx => exact inv_load hi (by simpa [checks] using hchk) s.h _ s.len
  | ldlenlo => exact inv_load hi (by simpa [checks] using hchk) s.h s.buf _
  | ldlenhi => exact inv_load hi (by simpa [checks] using hchk) s.h s.buf _
  | resume => exact inv_resume hi (resume_passes_iff.mp hchk).2

theorem inv_txnEffect {x : Txn} {s t : State} (hi : Inv s) (h : TxnEffect s x t) : Inv t := by
  cases h with
  | read off size => exact inv_of_same hi s.pending _ s.din
  | reset => exact inv_platformReset s
  | accepted _ hchk => exact inv_effect hi hchk
  | din v => exact inv_of_same hi s.pending s.reads v
  | rejected _ _ _ hcode => exact inv_raiseError hi hcode

end Sys2Proof.Machine

namespace Sys2Proof

/-- Settles O43. -/
theorem invariantHoldsAtReset : Obligations.InvariantHoldsAtReset := Machine.inv_reset

/-- Settles O44: the invariant ignores the queue, and every effect of a transaction keeps it. -/
theorem everyStepKeepsTheInvariant : Obligations.EveryStepKeepsTheInvariant := by
  intro s t hi h
  obtain ⟨-, rfl⟩ | ⟨x, rest, -, heff⟩ := Machine.step_effect h
  · exact hi
  · exact Machine.inv_txnEffect (Machine.inv_of_same hi rest s.reads s.din) heff

end Sys2Proof
end

section
/-! PROOF. What can change an element of the state: `ERR`, `DIN`, `H`, `READY`, `DVALID`
(spec/10_state.md R18, R22 to R25). -/

namespace Sys2Proof.Machine

/-- CLRERR alone touches `ERR` and `ERRCODE` (43_control.md R110). -/
theorem effect_err_errcode {i : Instr} (hi : i ≠ .clrerr) (s : State) :
    (effect i s).err = s.err ∧ (effect i s).errcode = s.errcode := by
  cases i with
  | clrerr => exact absurd rfl hi
  | _ => simp [effect]

/-- `DVALID` after an accepted command other than UPDATE, FINALIZE and CLRERR is 0 (10_state.md R23). -/
theorem dvalid_of_effect_dvalid {i : Instr} {s : State} (hchk : ∀ k ∈ checks i s, k.1 = false)
    (hd : (effect i s).dvalid = true) :
    (i = .finalize ∧ s.ready = true) ∨ (i = .clrerr ∧ s.dvalid = true) ∨ (s.ready = true ∧ s.dvalid = true) := by
  cases i with
  | update nb =>
    obtain ⟨-, hr, -⟩ := update_passes_iff.mp hchk
    exact .inr (.inr ⟨hr, by simpa [effect] using hd⟩)
  | finalize => exact .inl ⟨rfl, by simpa [checks] using hchk⟩
  | clrerr => exact .inr (.inl ⟨rfl, hd⟩)
  | _ => simp [effect] at hd

/-- The accepted commands that change `H` (10_state.md R18). -/
theorem effect_h_cases {i : Instr} {s : State} (hchk : ∀ k ∈ checks i s, k.1 = false)
    (hne : (effect i s).h ≠ s.h) :
    (∃ nb, i = .update nb ∧ s.ready = true ∧ 64 ≤ s.buflen.toNat + nb.toNat ∧
        ∃ b, (effect i s).h = compress s.h b) ∨
      (i = .finalize ∧ s.ready = true) ∨
      (i = .reinit ∧ s.ready = false ∧ (effect i s).h = iv) ∨
      ∃ idx, i = .ldh idx ∧ s.ready = false ∧ (effect i s).h = s.h.set idx s.din := by
  cases i with
  | update nb =>
    obtain ⟨hnb, hr, -⟩ := update_passes_iff.mp hchk
    have hlen := updateBytes_length nb s.din hnb
    have hge : 64 ≤ s.buflen.toNat + nb.toNat := by
      by_contra hlt
      refine hne ?_
      simp only [effect]
      rw [absorbAll_of_lt _ s (by omega)]
    exact .inl ⟨nb, rfl, hr, hge, absorbAll_h_of_ge _ s (by omega) (by omega)⟩
  | finalize => exact .inr (.inl ⟨rfl, by simpa [checks] using hchk⟩)
  | reinit => exact .inr (.inr (.inl ⟨rfl, by simpa [checks] using hchk, rfl⟩))
  | ldh idx => exact .inr (.inr (.inr ⟨idx, rfl, by simpa [checks] using hchk, rfl⟩))
  | _ => simp [effect] at hne

/-! `READY` after a command, accepted or rejected (10_state.md R22). -/

/-- FINALIZE leaves the engine Finalized: it is rejected only where the engine was. -/
theorem exec_finalize_ready {s t : State} (h : exec .finalize s = .next t) : t.ready = false := by
  obtain ⟨-, rfl⟩ | ⟨code, hmem, rfl⟩ := exec_result h
  · simp [effect]
  · have hfail : s.ready = false ∧ code = .notReady := by simpa [checks] using hmem
    exact hfail.1

/-- REINIT leaves the engine Ready: it is rejected only where the engine was. -/
theorem exec_reinit_ready {s t : State} (h : exec .reinit s = .next t) : t.ready = true := by
  obtain ⟨-, rfl⟩ | ⟨code, hmem, rfl⟩ := exec_result h
  · simp [effect]
  · have hfail : s.ready = true ∧ code = .stillReady := by simpa [checks] using hmem
    exact hfail.1

/-- RESUME makes the engine Ready exactly when `LEN` is within the limit. -/
theorem exec_resume_ready {s t : State} (h : exec .resume s = .next t) :
    t.ready = true ↔ s.ready = true ∨ s.len.toNat ≤ Config.lenMax := by
  obtain ⟨hchk, rfl⟩ | ⟨code, hmem, rfl⟩ := exec_result h
  · simp [effect, (resume_passes_iff.mp hchk).2]
  · have hfail : (s.ready = true ∧ code = .stillReady) ∨ (Config.lenMax < s.len.toNat ∧ code = .lenOvf) := by
      simpa [checks, lenExceeds_eq_true] using hmem
    obtain ⟨hr, -⟩ | ⟨hl, -⟩ := hfail
    · simp [hr]
    · simp [hl]

/-- Every other command keeps `READY`. -/
theorem exec_ready_of_ne {i : Instr} {s t : State} (hfin : i ≠ .finalize) (hreinit : i ≠ .reinit)
    (hres : i ≠ .resume) (h : exec i s = .next t) : t.ready = s.ready := by
  obtain ⟨-, rfl⟩ | ⟨code, -, rfl⟩ := exec_result h
  · cases i with
    | finalize => exact absurd rfl hfin
    | reinit => exact absurd rfl hreinit
    | resume => exact absurd rfl hres
    | _ => simp [effect]
  · rfl

end Sys2Proof.Machine

namespace Sys2Proof

open Machine

/-- Settles O25: an accepted CLRERR and reset are the only effects that touch a set `ERR`. -/
theorem errIsStickyUntilClrerrOrReset : Obligations.ErrIsStickyUntilClrerrOrReset := by
  intro s t h herr
  obtain ⟨-, rfl⟩ | ⟨x, rest, hp, heff⟩ := step_effect h
  · exact .inl ⟨herr, rfl⟩
  cases heff with
  | read off size => exact .inl ⟨herr, rfl⟩
  | reset => exact .inr ⟨rfl, rest, .inr hp⟩
  | @accepted c i hdec hchk =>
    by_cases hi : i = .clrerr
    · subst hi
      exact .inr ⟨rfl, rest, .inl (eq_clrerr_word hdec ▸ hp)⟩
    · obtain ⟨he, hc⟩ := effect_err_errcode hi { s with pending := rest }
      exact .inl ⟨he.trans herr, hc⟩
  | din v => exact .inl ⟨herr, rfl⟩
  | rejected off size v hcode => exact .inl ⟨rfl, by simp [herr]⟩

/-- Settles O39: no command and no rejection touches `DIN`. -/
theorem onlyItsWriteAndResetChangeDin : Obligations.OnlyItsWriteAndResetChangeDin := by
  intro s t h hne
  obtain ⟨-, rfl⟩ | ⟨x, rest, hp, heff⟩ := step_effect h
  · exact absurd rfl hne
  cases heff with
  | read off size => exact absurd rfl hne
  | reset => exact .inr ⟨rest, hp⟩
  | @accepted c i hdec hchk => exact absurd (effect_din i _) hne
  | din v => exact .inl ⟨rest, hp⟩
  | rejected off size v hcode => exact absurd rfl hne

/-- Settles O40: among the effects, reset and four accepted commands write `H`. -/
theorem writersOfH : Obligations.WritersOfH := by
  intro s t h hne
  obtain ⟨-, rfl⟩ | ⟨x, rest, hp, heff⟩ := step_effect h
  · exact absurd rfl hne
  cases heff with
  | read off size => exact absurd rfl hne
  | reset => exact .inl ⟨rest, hp, rfl⟩
  | @accepted c i hdec hchk =>
    refine .inr ⟨c, rest, hp, ?_⟩
    obtain ⟨nb, rfl, hupd⟩ | ⟨rfl, hr⟩ | ⟨rfl, hreinit⟩ | ⟨idx, rfl, hldh⟩ := effect_h_cases hchk hne
    · exact .inl ⟨nb, hdec, hupd⟩
    · exact .inr (.inl ⟨hdec, hr⟩)
    · exact .inr (.inr (.inl ⟨hdec, hreinit⟩))
    · exact .inr (.inr (.inr ⟨idx, hdec, hldh⟩))
  | din v => exact absurd rfl hne
  | rejected off size v hcode => exact absurd rfl hne

/-- Settles O41: FINALIZE always ends Finalized, REINIT Ready, RESUME by the count, and no other command
moves `READY`. -/
theorem readyTransitions : Obligations.ReadyTransitions := by
  intro i s t h
  cases i with
  | finalize =>
    have ht := exec_finalize_ready h
    exact ⟨fun _ => by simp [ht], fun _ => by simp [ht]⟩
  | reinit =>
    have ht := exec_reinit_ready h
    exact ⟨fun _ => by simp [ht], fun _ => by simp [ht]⟩
  | resume =>
    have ht := exec_resume_ready h
    exact ⟨fun hr => by simp [ht.mpr (.inl hr)], fun hr => by simp [ht, hr, Config.lenMax]⟩
  | _ =>
    have ht := exec_ready_of_ne (by simp) (by simp) (by simp) h
    exact ⟨fun hr => by simp [ht, hr], fun hr => by simp [ht, hr]⟩

/-- Settles O42: only FINALIZE sets `DVALID`, and where it stays set nothing has written `H`. -/
theorem dvalidMeansTheLastDigest : Obligations.DvalidMeansTheLastDigest := by
  intro s t hinv h hd
  obtain ⟨-, rfl⟩ | ⟨x, rest, hp, heff⟩ := step_effect h
  · exact .inr ⟨hd, rfl⟩
  cases heff with
  | read off size => exact .inr ⟨hd, rfl⟩
  | reset => cases hd
  | @accepted c i hdec hchk =>
    obtain ⟨rfl, hr⟩ | ⟨rfl, hs⟩ | ⟨hr, hs⟩ := dvalid_of_effect_dvalid hchk hd
    · exact .inl ⟨hr, rest, eq_finalize_word hdec ▸ hp⟩
    · exact .inr ⟨hs, rfl⟩
    · exact absurd hs (by simp [dvalid_of_ready hinv hr])
  | din v => exact .inr ⟨hd, rfl⟩
  | rejected off size v hcode => exact .inr ⟨hd, rfl⟩

end Sys2Proof
end

section
/-! PROOF. What registers read as: the fields of `STATUS` (spec/10_state.md R31) and the digest
(spec/10_state.md R35). -/

namespace Sys2Proof.Machine

/-- A well-formed read of a register's offset returns the register (20_memory.md R42). -/
theorem regRead_reg {off : Offset} {r : Reg} (hal : off.val % 4 = 0) (hoff : off.val = r.offset) (s : State) :
    regRead off 4 s = r.read s := by
  rw [regRead, if_pos ((wellFormedAccess_iff off 4).mpr ⟨rfl, hal⟩), Reg.at?_eq_some hoff]

/-- Appending bits is adding them below a shifted number. -/
theorem toNat_append_eq_add {m n : Nat} (x : BitVec m) (y : BitVec n) :
    (x ++ y).toNat = 2 ^ n * x.toNat + y.toNat := by
  rw [BitVec.toNat_append, Nat.shiftLeft_eq, Nat.mul_comm, Nat.two_pow_add_eq_or_of_lt y.isLt]

/-- `STATUS` as the sum of its fields at their weights (10_state.md R31). -/
theorem statusWord_toNat (s : State) : (statusWord s).toNat =
    65536 * s.buflen.toNat + 256 * s.errcode.bits.toNat + 4 * s.err.toNat + 2 * s.dvalid.toNat + s.ready.toNat := by
  change ((0 : BitVec 10) ++ s.buflen ++ (0 : BitVec 4) ++ s.errcode.bits ++ (0 : BitVec 5) ++ BitVec.ofBool s.err ++
    BitVec.ofBool s.dvalid ++ BitVec.ofBool s.ready : BitVec (10 + 6 + 4 + 4 + 5 + 1 + 1 + 1)).toNat = _
  simp only [toNat_append_eq_add, BitVec.toNat_ofBool, BitVec.ofNat_eq_ofNat, BitVec.toNat_ofNat,
    Nat.zero_mod]
  omega

/-- No register shows the noted values (log 3). -/
theorem Reg.read_reads (r : Reg) (s : State) (reads : List Word) :
    r.read { s with reads := reads } = r.read s := by
  cases r <;> rfl

theorem regRead_reads (off : Offset) (size : Nat) (s : State) (reads : List Word) :
    regRead off size { s with reads := reads } = regRead off size s := by
  simp only [regRead, Reg.read_reads]

/-- A run of reads notes what each offset holds, and changes nothing else (20_memory.md R45). -/
theorem runTxns_map_rd (offs : List Offset) (s : State) :
    runTxns (offs.map rd) s = .next { s with reads := s.reads ++ offs.map fun off => regRead off 4 s } := by
  induction offs generalizing s with
  | nil => simp [runTxns]
  | cons off offs ih =>
    rw [List.map_cons, runTxns_cons_next (show runTxn (rd off) s = _ from rfl), ih]
    simp [regRead_reads]

/-- `DIGESTi` reads as word `i` of `H` while `DVALID` is 1, else as 0 (10_state.md R35). -/
theorem regRead_digest (i : Fin 8) (s : State) :
    regRead (wordOffset 0x080 i.val) 4 s = if s.dvalid then s.h[i] else 0 := by
  have hoff : (wordOffset 0x080 i.val).val = (Reg.digest i).offset := by
    simp [wordOffset, Reg.offset]
    omega
  rw [regRead_reg (by simp [hoff, Reg.offset]) hoff]
  rfl

/-- The eight reads of RDDIGEST (30_encoding.md R67). -/
theorem runTxns_rdDigest (s : State) : runTxns rdDigest s =
    .next { s with reads := s.reads ++ if s.dvalid then s.h.toList else List.replicate 8 0 } := by
  have hrd : rdDigest = ((List.range 8).map (wordOffset 0x080)).map rd := by
    simp [rdDigest, readRun, List.map_map, Function.comp_def]
  rw [hrd, runTxns_map_rd]
  have hvalues : ((List.range 8).map (wordOffset 0x080)).map (fun off => regRead off 4 s) =
      if s.dvalid then s.h.toList else List.replicate 8 0 := by
    apply List.ext_getElem
    · cases s.dvalid <;> simp
    · intro n hn _
      have hread := regRead_digest ⟨n, by simpa using hn⟩ s
      simp only [List.getElem_map, List.getElem_range]
      rw [hread]
      split
      · simp
      · exact (List.getElem_replicate _).symm
  rw [hvalues]

/-- Byte `4i + k` of a run of words is byte `k` of word `i`. -/
theorem getElem?_flatMap_wordBytes (ws : List Word) (i : Nat) {k : Nat} (hk : k < 4) :
    (ws.flatMap wordBytes)[4 * i + k]? = ws[i]?.bind fun w => (wordBytes w)[k]? := by
  induction ws generalizing i with
  | nil => simp
  | cons w ws ih =>
    cases i with
    | zero => simp [List.getElem?_append, hk]
    | succ i =>
      rw [List.flatMap_cons, List.getElem?_append_right (by simp; omega)]
      simpa [show 4 * (i + 1) + k - 4 = 4 * i + k by omega] using ih i

/-- Byte `k` of a word, counted from the most significant (20_memory.md R46). -/
theorem wordBytes_getElem? (w : Word) (k : Fin 4) :
    (wordBytes w)[k.val]? = some (w.extractLsb' (24 - 8 * k.val) 8) := by
  fin_cases k <;> rfl

/-- Byte `4i + k` of the digest (10_state.md R35). -/
theorem serialize_getElem? (h : HashState) (i : Fin 8) (k : Fin 4) :
    (serialize h)[4 * i.val + k.val]? = some (h[i].extractLsb' (24 - 8 * k.val) 8) := by
  rw [serialize, getElem?_flatMap_wordBytes _ _ k.isLt]
  simp [wordBytes_getElem?]

end Sys2Proof.Machine

namespace Sys2Proof

open Machine

/-- Settles O13: each field is a digit of the sum `statusWord_toNat`. -/
theorem statusFields : Obligations.StatusFields := by
  refine ⟨fun s => ?_, rfl, rfl, rfl, rfl, rfl, rfl⟩
  have hread : regRead 0x008 4 s = statusWord s := regRead_reg (r := .status) rfl rfl s
  have hbuflen := s.buflen.isLt
  have hcode := s.errcode.bits.isLt
  have hready := s.ready.toNat_lt
  have hdvalid := s.dvalid.toNat_lt
  have herr := s.err.toNat_lt
  rw [hread, statusWord_toNat]
  omega

/-- Settles O16: the eight reads are `runTxns_rdDigest`, the bytes `serialize_getElem?`. -/
theorem digestRegisters : Obligations.DigestRegisters := by
  intro s t h
  rw [runTxns_rdDigest] at h
  cases h
  exact ⟨fun hd => by simp [hd], fun hd => ⟨by simp [hd], serialize_getElem? s.h⟩⟩

end Sys2Proof
end

section
/-! PROOF. The queue: no transaction reads or touches it, so the steps take it off one transaction at a time, in
order (spec/20_memory.md R41, R53). -/

namespace Sys2Proof.Machine

/-! ### A register write, by the offset's register (20_memory.md R43) -/

theorem regWrite_cmd {off : Offset} {size : Nat} (hw : wellFormedAccess off size = true)
    (hr : Reg.at? off = some .cmd) (v : Word) (s : State) : regWrite off size v s = executeCommand v s := by
  rw [regWrite, if_pos hw, hr, writeReg]

theorem regWrite_din {off : Offset} {size : Nat} (hw : wellFormedAccess off size = true)
    (hr : Reg.at? off = some .din) (v : Word) (s : State) : regWrite off size v s = .next { s with din := v } := by
  rw [regWrite, if_pos hw, hr, writeReg]

theorem regWrite_rejected {off : Offset} {size : Nat}
    (h : wellFormedAccess off size = false ∨ (Reg.at? off ≠ some .cmd ∧ Reg.at? off ≠ some .din))
    (v : Word) (s : State) : regWrite off size v s = .next (raiseError .badAccess s) := by
  obtain ⟨hw, hr, -⟩ | ⟨hw, hr, -⟩ | ⟨-, heq⟩ := regWrite_cases off size v s
  · simp [hw, hr] at h
  · simp [hw, hr] at h
  · exact heq

/-! ### The queue may be exchanged before or after a transaction (log 1) -/

/-- No transaction touches the queue. -/
theorem TxnEffect.pending_eq {s t : State} {x : Txn} (h : TxnEffect s x t) : t.pending = s.pending := by
  cases h with
  | accepted => exact effect_pending _ s
  | read | reset | din | rejected => rfl

theorem absorb_withPending (x : Byte) (s : State) (q : List Txn) :
    absorb x { s with pending := q } = { absorb x s with pending := q } := by
  unfold absorb
  dsimp only
  split <;> rfl

theorem absorbAll_withPending (xs : List Byte) (s : State) (q : List Txn) :
    absorbAll xs { s with pending := q } = { absorbAll xs s with pending := q } := by
  induction xs generalizing s with
  | nil => rfl
  | cons x xs ih => simp only [absorbAll_cons, absorb_withPending, ih]

theorem absorbPadding_withPending (s : State) (q : List Txn) :
    absorbPadding { s with pending := q } = { absorbPadding s with pending := q } := by
  simp only [absorbPadding_eq, absorb_buflen, absorbAll_withPending]

theorem effect_withPending (i : Instr) (s : State) (q : List Txn) :
    effect i { s with pending := q } = { effect i s with pending := q } := by
  cases i with
  | update nb => simp only [effect, absorbAll_withPending]
  | finalize => simp only [effect, absorbPadding_withPending]
  | _ => rfl

theorem checks_withPending (i : Instr) (s : State) (q : List Txn) :
    checks i { s with pending := q } = checks i s := by
  cases i <;> rfl

theorem guarded_withPending {cs : List (Bool × ErrCode)} {eff : State → State} {s t : State} {q : List Txn}
    (heff : eff { s with pending := q } = { eff s with pending := q }) (h : guarded cs eff s = .next t) :
    guarded cs eff { s with pending := q } = .next { t with pending := q } := by
  induction cs with
  | nil =>
    cases h
    exact congrArg _ heff
  | cons c cs ih =>
    obtain ⟨failed, code⟩ := c
    cases failed with
    | true =>
      cases h
      rfl
    | false => exact ih h

theorem exec_withPending {i : Instr} {s t : State} (h : exec i s = .next t) (q : List Txn) :
    exec i { s with pending := q } = .next { t with pending := q } := by
  rw [exec_eq_guarded] at h ⊢
  rw [checks_withPending]
  exact guarded_withPending (effect_withPending i s q) h

theorem executeCommand_withPending {c : Word} {s t : State} (h : executeCommand c s = .next t) (q : List Txn) :
    executeCommand c { s with pending := q } = .next { t with pending := q } := by
  cases hdec : decode c with
  | none =>
    rw [executeCommand_none hdec] at h ⊢
    cases h
    rfl
  | some i =>
    rw [executeCommand_some hdec] at h ⊢
    exact exec_withPending h q

theorem regWrite_withPending {off : Offset} {size : Nat} {v : Word} {s t : State}
    (h : regWrite off size v s = .next t) (q : List Txn) :
    regWrite off size v { s with pending := q } = .next { t with pending := q } := by
  obtain ⟨hw, hr, heq⟩ | ⟨hw, hr, heq⟩ | ⟨hrej, heq⟩ := regWrite_cases off size v s
  · rw [regWrite_cmd hw hr]
    exact executeCommand_withPending (heq.symm.trans h) q
  · rw [regWrite_din hw hr]
    cases heq.symm.trans h
    rfl
  · rw [regWrite_rejected hrej]
    cases heq.symm.trans h
    rfl

theorem regRead_withPending (off : Offset) (size : Nat) (s : State) (q : List Txn) :
    regRead off size { s with pending := q } = regRead off size s := by
  have hread (r : Reg) : r.read { s with pending := q } = r.read s := by cases r <;> rfl
  simp only [regRead, hread]

theorem runTxn_withPending {x : Txn} {s t : State} (h : runTxn x s = .next t) (q : List Txn) :
    runTxn x { s with pending := q } = .next { t with pending := q } := by
  cases x with
  | read off size =>
    cases h
    simp only [runTxn, regRead_withPending]
  | write off size v => exact regWrite_withPending h q
  | reset =>
    cases h
    rfl

/-- Every step answers a next state, its queue moved on by one transaction. -/
theorem step_next (s : State) : ∃ t, step s = .next t ∧ t.pending = s.pending.tail := by
  cases hp : s.pending with
  | nil => exact ⟨s, step_nil hp, hp⟩
  | cons x rest =>
    obtain ⟨t, ht⟩ := runTxn_next x { s with pending := rest }
    exact ⟨t, (step_cons hp).trans ht, (runTxn_effect ht).pending_eq⟩

theorem runSteps_succ_of_step {s t : State} (h : step s = .next t) (n : Nat) :
    runSteps (n + 1) s = runSteps n t := by
  rw [runSteps, h]

/-- The steps over the head of the queue are its transactions in order, with the rest of the queue left. -/
theorem runSteps_append (ts rest : List Txn) (s : State) :
    runSteps ts.length { s with pending := ts ++ rest } = runTxns ts { s with pending := rest } := by
  induction ts generalizing s with
  | nil => rfl
  | cons x ts ih =>
    obtain ⟨t, ht⟩ := runTxn_next x { s with pending := rest }
    have hrest : { t with pending := rest } = t := by
      have hq : t.pending = rest := (runTxn_effect ht).pending_eq
      rw [← hq]
    have hstep : step { s with pending := x :: ts ++ rest } = .next { t with pending := ts ++ rest } :=
      runTxn_withPending ht (ts ++ rest)
    calc runSteps (ts.length + 1) { s with pending := x :: ts ++ rest }
      _ = runSteps ts.length { t with pending := ts ++ rest } := runSteps_succ_of_step hstep _
      _ = runTxns ts { t with pending := rest } := ih t
      _ = runTxns (x :: ts) { s with pending := rest } := by rw [hrest, runTxns_cons_next ht]

end Sys2Proof.Machine

namespace Sys2Proof

open Machine

/-- Settles O9: a transaction always answers a next state and leaves the queue it is given. -/
theorem everyStepCompletes : Obligations.EveryStepCompletes := step_next

/-- Settles O10, by induction on the transactions: each one leaves the queue behind it for the next step. -/
theorem queueRunsInOrder : Obligations.QueueRunsInOrder := runSteps_append

end Sys2Proof
end

section
/-! PROOF. The register window: what every offset reads as, that reads change nothing, and where writes go
(spec/20_memory.md R39 to R45). -/

namespace Sys2Proof.Machine

/-! ### Reads -/

theorem regRead_malformed {off : Offset} {size : Nat} (h : size ≠ 4 ∨ off.val % 4 ≠ 0) (s : State) :
    regRead off size s = 0 := by
  have hw : ¬ wellFormedAccess off size = true := by
    rw [wellFormedAccess_iff]
    omega
  rw [regRead, if_neg hw]

/-- `CMD` and the reserved offsets read as 0 (10_state.md R30; 20_memory.md R42). -/
theorem regRead_reserved {off : Offset}
    (h : off.val = 0 ∨ (0x010 < off.val ∧ off.val < 0x020) ∨ 0x0A0 ≤ off.val) (s : State) :
    regRead off 4 s = 0 := by
  by_cases hal : off.val % 4 = 0
  · cases hr : Reg.at? off with
    | none => simp [regRead, hr]
    | some r =>
      have hoff := Reg.offset_of_at? hal hr
      rw [regRead_reg hal hoff]
      cases r with
      | cmd => rfl
      | _ =>
        simp only [Reg.offset] at hoff
        omega
  · exact regRead_malformed (.inr hal) s

theorem lenLo_toNat (l : Counter) : (lenLo l).toNat = l.toNat % 2 ^ 32 := by
  simp [lenLo]

theorem lenHi_toNat (l : Counter) : (lenHi l).toNat = l.toNat / 2 ^ 32 := by
  have hlt := l.isLt
  simp [lenHi, Nat.shiftRight_eq_div_pow]
  omega

/-- Reads of any form note what each access returns, and change nothing else (20_memory.md R45). -/
theorem runTxns_reads (accesses : List (Offset × Nat)) (s : State) :
    runTxns (accesses.map fun a => .read a.1 a.2) s =
      .next { s with reads := s.reads ++ accesses.map fun a => regRead a.1 a.2 s } := by
  induction accesses generalizing s with
  | nil => simp [runTxns]
  | cons a accesses ih =>
    rw [List.map_cons, runTxns_cons_next (show runTxn (.read a.1 a.2) s = _ from rfl), ih]
    simp [regRead_reads]

/-! ### Writes -/

/-- The offsets that take no write (20_memory.md R43): misaligned, of a wrong width, or past `DIN`. -/
theorem regWrite_badAccess {off : Offset} {size : Nat} (h : size ≠ 4 ∨ off.val % 4 ≠ 0 ∨ 4 < off.val)
    (v : Word) (s : State) : regWrite off size v s = .next (raiseError .badAccess s) := by
  apply regWrite_rejected
  by_cases hw : wellFormedAccess off size = true
  · obtain ⟨hsize, hal⟩ := (wellFormedAccess_iff off size).mp hw
    have hpast : 4 < off.val := by omega
    have hne {r : Reg} (hle : r.offset ≤ 4) : Reg.at? off ≠ some r := by
      intro hr
      have hoff := Reg.offset_of_at? hal hr
      omega
    exact .inr ⟨hne (by decide), hne (by decide)⟩
  · exact .inl (by simpa using hw)

/-- A 32-bit write to the offset of `CMD` executes the word (20_memory.md R43). -/
theorem regWrite_zero {off : Offset} (hoff : off.val = 0) (v : Word) (s : State) :
    regWrite off 4 v s = executeCommand v s :=
  regWrite_cmd ((wellFormedAccess_iff off 4).mpr ⟨rfl, by omega⟩) (Reg.at?_eq_some hoff) v s

/-- A 32-bit write to the offset of `DIN` stores the word (20_memory.md R43). -/
theorem regWrite_four {off : Offset} (hoff : off.val = 4) (v : Word) (s : State) :
    regWrite off 4 v s = .next { s with din := v } :=
  regWrite_din ((wellFormedAccess_iff off 4).mpr ⟨rfl, by omega⟩) (Reg.at?_eq_some hoff) v s

/-! ### The window on the bus (20_memory.md R39) -/

theorem offsetOf_eq_some_iff {base addr : Nat} {off : Offset} :
    offsetOf base addr = some off ↔ addr = base + off.val := by
  have hlt := off.isLt
  unfold offsetOf
  split
  · rw [Option.some.injEq, Fin.ext_iff]
    dsimp only
    omega
  · simp only [reduceCtorEq, false_iff]
    omega

theorem offsetOf_eq_none_iff {base addr : Nat} :
    offsetOf base addr = none ↔ addr < base ∨ base + 256 ≤ addr := by
  rw [offsetOf, dite_eq_right_iff]
  simp only [reduceCtorEq, imp_false]
  omega

theorem receive_of_txn?_none {a : BusAccess} (h : a.txn? Config.base = none) (s : State) : s.receive a = s := by
  rw [State.receive, h]

theorem receive_of_txn?_some {a : BusAccess} {x : Txn} (h : a.txn? Config.base = some x) (s : State) :
    s.receive a = { s with pending := s.pending ++ [x] } := by
  rw [State.receive, h]

end Sys2Proof.Machine

namespace Sys2Proof

open Machine

/-- Settles O11: each register is read at its own offset by `regRead_reg`; no register stands at the others. -/
theorem registerReadValues : Obligations.RegisterReadValues := by
  have aligned {off : Offset} {first k : Nat} (hoff : off.val = first + 4 * k) (hfirst : first % 4 = 0) :
      off.val % 4 = 0 := by omega
  refine ⟨fun s off size h => regRead_malformed h s, fun s => ⟨?din, ?status, ?lenLo, ?lenHi⟩, ?h, ?buf, ?digest,
    fun s off h => regRead_reserved h s, ?step⟩
  case din => exact regRead_reg (r := .din) rfl rfl s
  case status => exact regRead_reg (r := .status) rfl rfl s
  case lenLo => exact regRead_reg (off := 0x00C) (r := .lenLo) rfl rfl s ▸ lenLo_toNat s.len
  case lenHi => exact regRead_reg (off := 0x010) (r := .lenHi) rfl rfl s ▸ lenHi_toNat s.len
  case h => exact fun s off i hoff => regRead_reg (r := .h i) (aligned hoff rfl) hoff s
  case buf => exact fun s off j hoff => regRead_reg (r := .buf j) (aligned hoff rfl) hoff s
  case digest => exact fun s off i hoff => regRead_reg (r := .digest i) (aligned hoff rfl) hoff s
  case step =>
    intro s off size rest hp
    rw [step_cons hp, runTxn, regRead_withPending]

/-- Settles O12, by induction on the reads: no register shows the noted values. -/
theorem readsChangeNothing : Obligations.ReadsChangeNothing := runTxns_reads

/-- Settles O14: `CMD` and `DIN` are the registers at offsets 0 and 4, and no other write is accepted. -/
theorem writesReachOnlyCmdAndDin : Obligations.WritesReachOnlyCmdAndDin := by
  intro s off size v rest hp
  rw [step_cons hp]
  refine ⟨fun hbad => regWrite_badAccess hbad v _, ?_, ?_⟩
  · rintro rfl hoff
    exact regWrite_zero hoff v _
  · rintro rfl hoff
    exact regWrite_four hoff v _

/-- Settles O7: the write reaches `CMD`, and the word is the command. -/
theorem stepRunsTheDecodedCommand : Obligations.StepRunsTheDecodedCommand := by
  intro s rest c i hp hdec
  calc step s
    _ = regWrite 0x000 4 c { s with pending := rest } := step_cons hp
    _ = executeCommand c { s with pending := rest } := regWrite_zero rfl c _
    _ = exec i { s with pending := rest } := executeCommand_some hdec _

/-- Settles O15: the window is the 256 offsets from the base, and an access joins the queue where it has one. -/
theorem windowDecodesItsAddresses : Obligations.WindowDecodesItsAddresses := by
  refine ⟨fun _ _ _ => offsetOf_eq_some_iff, fun _ _ => offsetOf_eq_none_iff, ?_, ?_⟩
  · intro s addr size v hout
    have hnone := offsetOf_eq_none_iff.mpr hout
    exact ⟨receive_of_txn?_none (by simp [BusAccess.txn?, hnone]) s,
      receive_of_txn?_none (by simp [BusAccess.txn?, hnone]) s⟩
  · intro s off size v
    have hsome : offsetOf Config.base (Config.base + off.val) = some off := offsetOf_eq_some_iff.mpr rfl
    exact ⟨receive_of_txn?_some (by simp [BusAccess.txn?, hsome]) s,
      receive_of_txn?_some (by simp [BusAccess.txn?, hsome]) s⟩

end Sys2Proof
end

section
/-! PROOF. A word appended at a word boundary of the buffer (spec/20_memory.md R47). -/

namespace Sys2Proof.Machine

/-- The bytes of a word, most significant first, make the word (00_scope.md R13). -/
theorem be32_bytes (w : Word) :
    be32 (w.extractLsb' 24 8) (w.extractLsb' 16 8) (w.extractLsb' 8 8) (w.extractLsb' 0 8) = w := by
  apply BitVec.eq_of_toNat_eq
  have hlt := w.isLt
  simp only [be32, toNat_append_eq_add, BitVec.extractLsb'_toNat, Nat.shiftRight_eq_div_pow]
  omega

theorem fill_getElem (b : Block) (n : Nat) (xs : List Byte) {j : Nat} (hj : j < 64) :
    (fill b n xs)[j] = if n ≤ j ∧ j < n + xs.length then xs.getD (j - n) 0 else b[j] := by
  simp [fill]

/-- A word's bytes written from `4n` on are word `n` of the buffer. -/
theorem bufWord_fill_same (b : Block) (n : Fin 16) (w : Word) :
    bufWord (fill b (4 * n.val) (wordBytes w)) n = w := by
  have hbyte (j : Nat) (hj : j < 64) (hn : 4 * n.val ≤ j ∧ j < 4 * n.val + 4) :
      (fill b (4 * n.val) (wordBytes w))[j] = (wordBytes w).getD (j - 4 * n.val) 0 := by
    rw [fill_getElem, wordBytes_length, if_pos hn]
  rw [bufWord, hbyte (4 * n.val) _ (by omega), hbyte (4 * n.val + 1) _ (by omega),
    hbyte (4 * n.val + 2) _ (by omega), hbyte (4 * n.val + 3) _ (by omega)]
  simp only [Nat.sub_self, Nat.add_sub_cancel_left]
  exact be32_bytes w

/-- They leave the other words of the buffer. -/
theorem bufWord_fill_ne (b : Block) {n m : Fin 16} (hne : m ≠ n) (w : Word) :
    bufWord (fill b (4 * n.val) (wordBytes w)) m = bufWord b m := by
  have hval : m.val ≠ n.val := fun h => hne (Fin.ext h)
  have hbyte (j : Nat) (hj : j < 64) (hm : 4 * m.val ≤ j ∧ j < 4 * m.val + 4) :
      (fill b (4 * n.val) (wordBytes w))[j] = b[j] := by
    rw [fill_getElem, wordBytes_length, if_neg (by omega)]
  rw [bufWord, hbyte (4 * m.val) _ (by omega), hbyte (4 * m.val + 1) _ (by omega),
    hbyte (4 * m.val + 2) _ (by omega), hbyte (4 * m.val + 3) _ (by omega), ← bufWord]

theorem runTxn_wdin (v : Word) (s : State) : runTxn (wdin v) s = .next { s with din := v } :=
  regWrite_four rfl v s

theorem runTxn_cmd {i : Instr} (hdec : decode (encode i) = some i) (s : State) : runTxn (cmd i) s = exec i s :=
  (regWrite_zero rfl (encode i) s).trans (executeCommand_some hdec s)

/-- A whole word of `DIN`, appended (20_memory.md R47). -/
theorem runTxns_wdin_update {s : State} (hr : s.ready = true) (hl : s.len.toNat + 4 ≤ Config.lenMax) (v : Word) :
    runTxns [wdin v, cmd (.update 4)] s =
      .next { absorbAll (wordBytes v) { s with din := v } with len := s.len + 4 } := by
  have hupdate := exec_update_accepted (nb := 4) (s := { s with din := v }) (by decide) hr hl
  rw [runTxns_cons_next (runTxn_wdin v s), runTxns_cons_next ((runTxn_cmd rfl _).trans hupdate)]
  rfl

end Sys2Proof.Machine

namespace Sys2Proof

open Machine

/-- Settles O30: the word fills its place in the block, which is the buffer or, when full, is compressed. -/
theorem alignedWordLandsUnchanged : Obligations.AlignedWordLandsUnchanged := by
  intro s n v hr hl hbuflen
  refine ⟨_, fill s.buf (4 * n.val) (wordBytes v), runTxns_wdin_update hr hl v, bufWord_fill_same _ n v,
    fun m hm => bufWord_fill_ne _ hm v, fun hlt => ?_, fun hlast => ?_⟩
  · have hroom := absorbAll_of_lt (wordBytes v) { s with din := v } (show s.buflen.toNat + 4 < 64 by omega)
    have hcount : (s.buflen + 4).toNat = 4 * n.val + 4 := by
      rw [BitVec.toNat_add, hbuflen]
      exact Nat.mod_eq_of_lt (show 4 * n.val + 4 < 64 by omega)
    rw [hroom, ← hbuflen]
    exact ⟨rfl, rfl, hcount.trans (by rw [hbuflen])⟩
  · have hfull := absorbAll_of_full (wordBytes v) { s with din := v } (by simp [wordBytes])
      (show s.buflen.toNat + 4 = 64 by omega)
    rw [hfull, ← hbuflen]
    exact ⟨rfl, rfl, rfl⟩

end Sys2Proof
end

section
/-! PROOF. The encoding: decoding and encoding are inverse to each other on the well-formed commands and the legal
words, and the illegal words by their fields as numbers (spec/30_encoding.md R60 to R64). -/

namespace Sys2Proof

/-! ### Decoding the word of a command (30_encoding.md R60 to R63) -/

/-- This hardware's decoder on a word given by its fields. -/
theorem decode_commandWord (opc : BitVec 8) (opd : BitVec 6) :
    decode (commandWord opc opd) = opcodeMap true opc opd := decodeWith_commandWord true opc opd

/-- A byte count written to the operand field is read back, where it is a legal one. -/
theorem decodeB_setWidth (nb : BitVec 3) :
    decodeB (nb.setWidth 6) = if (Instr.update nb).wf = true then some (.update nb) else none := by
  have hfits : (nb.setWidth 6).toNat = nb.toNat := BitVec.toNat_setWidth_of_le (by decide)
  have hback : (nb.setWidth 6).extractLsb' 0 3 = nb := by
    apply BitVec.eq_of_toNat_eq
    rw [BitVec.extractLsb'_toNat, hfits]
    exact Nat.mod_eq_of_lt nb.isLt
  simp only [decodeB, hfits, hback, Instr.wf, decide_eq_true_eq]

theorem decodeX3_ofNat (idx : Fin 8) : decodeX3 (BitVec.ofNat 6 idx.val) = some (.ldh idx) := by
  have hfits : (BitVec.ofNat 6 idx.val).toNat = idx.val := Nat.mod_eq_of_lt (by omega)
  simp only [decodeX3, hfits, idx.isLt, dite_true]

theorem decodeX4_ofNat (idx : Fin 16) : decodeX4 (BitVec.ofNat 6 idx.val) = some (.ldbuf idx) := by
  have hfits : (BitVec.ofNat 6 idx.val).toNat = idx.val := Nat.mod_eq_of_lt (by omega)
  simp only [decodeX4, hfits, idx.isLt, dite_true]

/-- The row of the opcode map that a command is written for reads the command back, format by format; it refuses
exactly the ill-formed ones. -/
theorem decode_encode (i : Instr) : decode (encode i) = if i.wf = true then some i else none := by
  cases i with
  | update nb => exact (decode_commandWord 0x01 _).trans (decodeB_setWidth nb)
  | ldh idx => exact (decode_commandWord 0x10 _).trans (decodeX3_ofNat idx)
  | ldbuf idx => exact (decode_commandWord 0x11 _).trans (decodeX4_ofNat idx)
  | finalize | reinit | clrerr | ldlenlo | ldlenhi | resume => exact decode_commandWord _ 0

/-- A command that some word decodes to is well formed: its own word is that word. -/
theorem wf_of_decode {c : Word} {i : Instr} (h : decode c = some i) : i.wf = true := by
  have hself : (if i.wf = true then some i else none) = some i := by
    rw [← decode_encode, encode_of_decode h, h]
  exact (Option.ite_none_right_eq_some.mp hself).1

/-! ### The illegal words (30_encoding.md R64) -/

theorem opcField_toNat (c : Word) : (opcField c).toNat = c.toNat / 2 ^ 24 := by
  rw [opcField, BitVec.extractLsb'_toNat, Nat.shiftRight_eq_div_pow]
  omega

theorem reservedField_toNat (c : Word) : (reservedField c).toNat = c.toNat / 2 ^ 6 % 2 ^ 18 := by
  rw [reservedField, BitVec.extractLsb'_toNat, Nat.shiftRight_eq_div_pow]

theorem opdField_toNat (c : Word) : (opdField c).toNat = c.toNat % 64 := by
  rw [opdField, BitVec.extractLsb'_toNat, Nat.shiftRight_zero]

theorem decodeN_eq_none_iff {i : Instr} {opd : BitVec 6} : decodeN i opd = none ↔ opd.toNat ≠ 0 := by
  simp only [decodeN, ite_eq_right_iff, reduceCtorEq, imp_false]
  exact BitVec.toNat_ne_iff_ne.symm

theorem decodeB_eq_none_iff {opd : BitVec 6} :
    decodeB opd = none ↔ 5 ≤ opd.toNat % 8 ∨ opd.toNat / 8 ≠ 0 := by
  simp only [decodeB, ite_eq_right_iff, reduceCtorEq, imp_false]
  omega

theorem decodeX3_eq_none_iff {opd : BitVec 6} : decodeX3 opd = none ↔ opd.toNat / 8 ≠ 0 := by
  simp only [decodeX3, dite_eq_right_iff, reduceCtorEq, imp_false]
  omega

theorem decodeX4_eq_none_iff {opd : BitVec 6} : decodeX4 opd = none ↔ opd.toNat / 16 ≠ 0 := by
  simp only [decodeX4, dite_eq_right_iff, reduceCtorEq, imp_false]
  omega

/-- The opcodes without a row, and for each row the operand fields that its format refuses. -/
theorem opcodeMap_eq_none_iff {opc : BitVec 8} {opd : BitVec 6} : opcodeMap true opc opd = none ↔
    (opc.toNat = 0x00 ∨ (0x05 ≤ opc.toNat ∧ opc.toNat ≤ 0x0F) ∨ 0x15 ≤ opc.toNat) ∨
    (opc.toNat = 0x01 ∧ (5 ≤ opd.toNat % 8 ∨ opd.toNat / 8 ≠ 0)) ∨
    (opc.toNat = 0x10 ∧ opd.toNat / 8 ≠ 0) ∨
    (opc.toNat = 0x11 ∧ opd.toNat / 16 ≠ 0) ∨
    (opc.toNat ∈ [0x02, 0x03, 0x04, 0x12, 0x13, 0x14] ∧ opd.toNat ≠ 0) := by
  unfold opcodeMap
  split
  case h_1 hopc => simp [hopc, decodeB_eq_none_iff]
  case h_5 hopc => simp [hopc, onlyWith, decodeX3_eq_none_iff]
  case h_6 hopc => simp [hopc, onlyWith, decodeX4_eq_none_iff]
  case h_2 hopc | h_3 hopc | h_4 hopc | h_7 hopc | h_8 hopc | h_9 hopc =>
    simp [hopc, onlyWith, decodeN_eq_none_iff]
  case h_10 =>
    simp only [imp_false, List.mem_cons, List.not_mem_nil, true_iff] at *
    omega

/-- A word is refused for its reserved field, or by the opcode map for the other two. -/
theorem decode_eq_none_iff {c : Word} :
    decode c = none ↔ reservedField c ≠ 0 ∨ opcodeMap true (opcField c) (opdField c) = none := by
  rw [decode, decodeWith, ite_eq_right_iff, imp_iff_not_or]
  rfl

end Sys2Proof

namespace Sys2Proof

open Machine

/-- Settles O1: the row a well-formed command is written for reads it back. -/
theorem decodeOfEncodeIsTheCommand : Obligations.DecodeOfEncodeIsTheCommand :=
  fun i hwf => (decode_encode i).trans (if_pos hwf)

/-- Settles O2: every row of the opcode map answers the command that has the row's word. -/
theorem encodeOfDecodeIsTheWord : Obligations.EncodeOfDecodeIsTheWord :=
  fun _ _ hdec => ⟨wf_of_decode hdec, encode_of_decode hdec⟩

/-- Settles O3: the reserved field or the opcode map refuses the word, and each by its number. -/
theorem illegalWordsAreExactlyThese : Obligations.IllegalWordsAreExactlyThese := by
  refine ⟨fun c s hnone => executeCommand_none hnone s, fun c => ?_⟩
  have hopd : c.toNat % 64 % 8 = c.toNat % 8 := Nat.mod_mod_of_dvd _ (by decide)
  rw [decode_eq_none_iff, opcodeMap_eq_none_iff, ← BitVec.toNat_ne_iff_ne, reservedField_toNat, opcField_toNat,
    opdField_toNat, hopd]
  exact or_left_comm

/-- Settles O4: the write reaches `CMD`, and the word has no command. -/
theorem illegalWordIsRejected : Obligations.IllegalWordIsRejected := by
  intro s rest c hp hnone
  calc step s
    _ = regWrite 0x000 4 c { s with pending := rest } := step_cons hp
    _ = executeCommand c { s with pending := rest } := regWrite_zero rfl c _
    _ = .next (raiseError .illegalCmd { s with pending := rest }) := executeCommand_none hnone _

/-- Settles O6: each of the six legal words is the word of its command, and the decoder's checks run on the three
illegal ones. -/
theorem specWordsDecode : Obligations.SpecWordsDecode :=
  ⟨decode_encode (.update 0), decode_encode (.update 4), decode_encode .finalize, decode_encode (.ldh 7),
    decode_encode (.ldbuf 15), decode_encode .resume, rfl, rfl, rfl⟩

end Sys2Proof
end

section
/-! PROOF. The functions of a round, bit by bit (spec/40_compressor.md R70 to R75). -/

namespace Sys2Proof.Machine

/-- Bit `k` of a rotated word is the bit `n` places above, around the word (00_scope.md R12). -/
theorem rotr_getLsbD {n k : Nat} (hn : n < 32) (hk : k < 32) (x : Word) :
    (rotr n x).getLsbD k = x.getLsbD ((k + n) % 32) := by
  rw [rotr, BitVec.getLsbD_or, BitVec.getLsbD_ushiftRight, BitVec.getLsbD_shiftLeft]
  by_cases hwrap : k + n < 32
  · rw [Nat.mod_eq_of_lt hwrap]
    simp [show k < 32 - n by omega, Nat.add_comm n k]
  · have hback : (k + n) % 32 = k - (32 - n) := by omega
    simp [hback, hk, show ¬ k < 32 - n by omega, BitVec.getLsbD_of_ge x (n + k) (by omega)]

/-- Bit `k` of a shifted word is the bit `n` places above, where there is one. -/
theorem ushiftRight_getLsbD (n k : Nat) (x : Word) :
    (x >>> n).getLsbD k = (decide (k + n < 32) && x.getLsbD (k + n)) := by
  rw [BitVec.getLsbD_ushiftRight, Nat.add_comm n k]
  by_cases hin : k + n < 32
  · simp [hin]
  · simp [BitVec.getLsbD_of_ge x (k + n) (by omega)]

end Sys2Proof.Machine

namespace Sys2Proof

open Machine

/-- Settles O45: the bits of an exclusive-or are those of its rotated and shifted operands. -/
theorem sigmaFunctionsByBit : Obligations.SigmaFunctionsByBit := by
  intro x k hk
  have hrot {n : Nat} (hn : n < 32) := rotr_getLsbD hn hk x
  refine ⟨?_, ?_, ?_, ?_⟩
  · rw [smallSigma0, BitVec.getLsbD_xor, BitVec.getLsbD_xor, hrot (by decide), hrot (by decide), ushiftRight_getLsbD]
  · rw [smallSigma1, BitVec.getLsbD_xor, BitVec.getLsbD_xor, hrot (by decide), hrot (by decide), ushiftRight_getLsbD]
  · rw [bigSigma0, BitVec.getLsbD_xor, BitVec.getLsbD_xor, hrot (by decide), hrot (by decide), hrot (by decide)]
  · rw [bigSigma1, BitVec.getLsbD_xor, BitVec.getLsbD_xor, hrot (by decide), hrot (by decide), hrot (by decide)]

/-- Settles O46: bit `k` of both functions depends on bit `k` of the operands alone, by their eight values. -/
theorem chooseAndMajorityByBit : Obligations.ChooseAndMajorityByBit := by
  intro x y z k hk
  have hch : (ch x y z).getLsbD k = ((x.getLsbD k && y.getLsbD k) ^^ (!x.getLsbD k && z.getLsbD k)) := by
    simp [ch, hk]
  have hmaj : (maj x y z).getLsbD k =
      (((x.getLsbD k && y.getLsbD k) ^^ (x.getLsbD k && z.getLsbD k)) ^^ (y.getLsbD k && z.getLsbD k)) := by
    simp [maj]
  rw [hch, hmaj]
  generalize x.getLsbD k = p, y.getLsbD k = q, z.getLsbD k = r
  revert p q r
  decide

end Sys2Proof
end

section
/-! PROOF. The message schedule (spec/40_compressor.md R78, R79), and the two other ways to run a compression: round
by round (R86), and with a window of 16 schedule words (R85). -/

namespace Sys2Proof.Machine

/-! ### The schedule -/

theorem expandStep_getElem_same (w : Vector Word 64) (t : Fin 48) :
    (expandStep w t)[t.val + 16] = nextScheduleWord w[t.val + 14] w[t.val + 9] w[t.val + 1] w[t.val] := by
  simp [expandStep]

theorem expandStep_getElem_of_lt (w : Vector Word 64) {t : Fin 48} {i : Nat} (hi : i < t.val + 16) :
    (expandStep w t)[i] = w[i] := by
  simp [expandStep, show t.val + 16 ≠ i by omega]

/-- Steps of the expansion leave every word below those they write. -/
theorem foldl_expandStep_getElem {ts : List (Fin 48)} {i : Nat} (hi : i < 64) (hts : ∀ t ∈ ts, i < t.val + 16)
    (w : Vector Word 64) : (ts.foldl expandStep w)[i] = w[i] := by
  induction ts generalizing w with
  | nil => rfl
  | cons t ts ih =>
    rw [List.foldl_cons, ih fun u hu => hts u (List.mem_cons_of_mem t hu)]
    exact expandStep_getElem_of_lt w (hts t List.mem_cons_self)

/-- The schedule begins with the block's words (40_compressor.md R78). -/
theorem schedule_getElem_of_lt (b : Block) (t : Fin 16) : (schedule b)[t.val] = (parseBlock b)[t] := by
  rw [schedule, foldl_expandStep_getElem (by omega) fun u _ => by omega]
  exact Vector.getElem_append_left t.isLt

/-- Every later word is made of the words 2, 7, 15 and 16 places before it (40_compressor.md R79): step `t` of the
expansion writes it, and no later step touches any of the five. -/
theorem schedule_getElem_add_sixteen (b : Block) (t : Fin 48) :
    (schedule b)[t.val + 16] = nextScheduleWord (schedule b)[t.val + 14] (schedule b)[t.val + 9]
      (schedule b)[t.val + 1] (schedule b)[t.val] := by
  obtain ⟨before, after, hsplit⟩ := List.append_of_mem (List.mem_finRange t)
  have hafter : ∀ u ∈ after, t < u := by
    have hsorted := List.pairwise_lt_finRange 48
    rw [hsplit, List.pairwise_append] at hsorted
    exact (List.pairwise_cons.mp hsorted.2.1).1
  obtain ⟨w, hw⟩ : ∃ w, schedule b = after.foldl expandStep (expandStep w t) :=
    ⟨_, by rw [schedule, hsplit, List.foldl_append, List.foldl_cons]⟩
  have hkept {i : Nat} (hi : i < t.val + 17) : (schedule b)[i] = (expandStep w t)[i] := by
    simp only [hw]
    exact foldl_expandStep_getElem (by omega) (fun u hu => by have := hafter u hu; omega) _
  have hread {i : Nat} (hi : i < t.val + 16) : (schedule b)[i] = w[i] :=
    (hkept (by omega)).trans (expandStep_getElem_of_lt w hi)
  rw [hkept (by omega), expandStep_getElem_same, hread (by omega), hread (by omega), hread (by omega),
    hread (by omega)]

/-! ### Round by round -/

/-- A predicate that each turn of a loop carries on holds at the loop's end. -/
theorem foldl_finRange_invariant {α : Type} {m : Nat} {f : α → Fin m → α} {a : α} (P : Nat → α → Prop)
    (h0 : P 0 a) (hstep : ∀ (t : Fin m) (x : α), P t.val x → P (t.val + 1) (f x t)) : P m ((List.finRange m).foldl f a) := by
  induction m with
  | zero => simpa using h0
  | succ m ih =>
    rw [List.finRange_succ_last, List.foldl_append, List.foldl_map]
    exact hstep (Fin.last m) _ (ih fun t => hstep t.castSucc)

theorem Compression.run_succ (n : Nat) (c : Compression) : Compression.run (n + 1) c = (Compression.run n c).step := by
  induction n generalizing c with
  | zero => rfl
  | succ n ih => exact ih c.step

theorem Compression.step_t {c : Compression} (h : c.t < 64) : c.step.t = c.t + 1 := by
  rw [Compression.step, dif_pos h]

/-- The round index counts the rounds (40_compressor.md R86). -/
theorem Compression.run_start_t {n : Nat} (hn : n ≤ 64) (s : HashState) (b : Block) :
    (Compression.run n (Compression.start s b)).t = n := by
  induction n with
  | zero => rfl
  | succ n ih =>
    have ht := ih (by omega)
    rw [Compression.run_succ, Compression.step_t (by omega), ht]

/-- One more round, where the rounds so far are known. -/
theorem Compression.run_succ_of_run {c : Compression} {t : Fin 64} {v : Working} {w : Vector Word 64} {s : HashState}
    (h : Compression.run t.val c = ⟨t.val, v, w, s⟩) :
    Compression.run (t.val + 1) c = ⟨t.val + 1, round (roundConstant t) w[t] v, w, s⟩ := by
  rw [Compression.run_succ, h, Compression.step, dif_pos t.isLt]
  rfl

/-- After 64 rounds the working variables are those of `rounds` (40_compressor.md R82). -/
theorem Compression.run_start (s : HashState) (b : Block) : Compression.run 64 (Compression.start s b) =
    ⟨64, rounds (schedule b) (initWorking s), schedule b, s⟩ :=
  foldl_finRange_invariant (fun n v => Compression.run n (Compression.start s b) = ⟨n, v, schedule b, s⟩) rfl
    fun _ _ => Compression.run_succ_of_run

theorem Compression.run_start_result (s : HashState) (b : Block) :
    (Compression.run 64 (Compression.start s b)).result = some (compress s b) := by
  rw [Compression.run_start, Compression.result, if_pos rfl, compress]

/-! ### The window of 16 words -/

/-- The window holds words `t` to `t + 15` of the schedule, those of them that exist (40_compressor.md R85). -/
def IsWindow (b : Block) (t : Nat) (w : Vector Word 16) : Prop :=
  ∀ (j : Fin 16) (h : t + j.val < 64), w[j] = (schedule b)[t + j.val]

theorem isWindow_parseBlock (b : Block) : IsWindow b 0 (parseBlock b) := by
  intro j _
  simpa using (schedule_getElem_of_lt b j).symm

/-- The recurrence supplies the word that enters the window. -/
theorem isWindow_shiftWindow {b : Block} {t : Nat} {w : Vector Word 16} (hw : IsWindow b t w) :
    IsWindow b (t + 1) (shiftWindow w) := by
  intro j h
  by_cases hj : j.val + 1 < 16
  · have hnext := hw ⟨j.val + 1, hj⟩ (by dsimp only; omega)
    simpa [shiftWindow, hj, Nat.add_assoc, Nat.add_comm 1] using hnext
  · have hlast : j = 15 := by omega
    subst hlast
    have ht : t < 48 := by
      have hval : (15 : Fin 16).val = 15 := rfl
      omega
    have hread (i : Fin 16) : w[i] = (schedule b)[t + i.val] := hw i (by omega)
    calc (shiftWindow w)[15]
      _ = nextScheduleWord w[14] w[9] w[1] w[0] := by simp [shiftWindow]
      _ = nextScheduleWord (schedule b)[t + 14] (schedule b)[t + 9] (schedule b)[t + 1] (schedule b)[t] :=
        congr (congr (congr (congrArg nextScheduleWord (hread 14)) (hread 9)) (hread 1)) (hread 0)
      _ = (schedule b)[t + 16] := (schedule_getElem_add_sixteen b ⟨t, ht⟩).symm

/-- What the windowed loop has reached after `n` rounds: the window at place `n`, and the working variables of `n`
rounds of the full schedule. -/
structure WindowedAfter (s : HashState) (b : Block) (n : Nat) (p : Vector Word 16 × Working) : Prop where
  window : IsWindow b n p.1
  run : Compression.run n (Compression.start s b) = ⟨n, p.2, schedule b, s⟩

theorem windowedAfter_zero (s : HashState) (b : Block) : WindowedAfter s b 0 (parseBlock b, initWorking s) :=
  ⟨isWindow_parseBlock b, rfl⟩

theorem windowedAfter_succ {s : HashState} {b : Block} {t : Fin 64} {p : Vector Word 16 × Working}
    (h : WindowedAfter s b t.val p) : WindowedAfter s b (t.val + 1) (windowRound p t) := by
  have hword : p.1[0] = (schedule b)[t] := h.window 0 (by simp)
  refine ⟨isWindow_shiftWindow h.window, ?_⟩
  rw [Compression.run_succ_of_run h.run, windowRound, hword]

theorem WindowedAfter.result {s : HashState} {b : Block} {p : Vector Word 16 × Working}
    (h : WindowedAfter s b 64 p) : addWorking s p.2 = compress s b := by
  have hresult := Compression.run_start_result s b
  rw [h.run, Compression.result, if_pos rfl] at hresult
  exact Option.some.inj hresult

theorem compressWindowed_eq (s : HashState) (b : Block) : compressWindowed s b = compress s b :=
  (foldl_finRange_invariant (WindowedAfter s b) (windowedAfter_zero s b) fun _ _ => windowedAfter_succ).result

end Sys2Proof.Machine

namespace Sys2Proof

open Machine

/-- Settles O47: the expansion starts from the parsed block and writes each later word once. -/
theorem scheduleRecurrence : Obligations.ScheduleRecurrence := by
  intro b
  refine ⟨fun t => ?_, schedule_getElem_add_sixteen b⟩
  rw [schedule_getElem_of_lt]
  simp [parseBlock]

/-- Settles O48: the round index tells whether the result is exposed, and 64 rounds are those of `compress`. -/
theorem roundByRoundIsCompress : Obligations.RoundByRoundIsCompress := by
  intro s b
  refine ⟨fun n hn => ?_, Compression.run_start_result s b⟩
  have ht := Compression.run_start_t (Nat.le_of_lt hn) s b
  rw [Compression.result, if_neg (by omega)]

/-- Settles O49, by a simulation: the window is the schedule's next 16 words in every round. -/
theorem windowedScheduleIsCompress : Obligations.WindowedScheduleIsCompress := compressWindowed_eq

end Sys2Proof
end

section
/-! PROOF. The pseudo-operations PUSH and RESTORE as one update of the state each (spec/30_encoding.md R67;
spec/42_midstate.md R109), and any compression through them (spec/40_compressor.md R69). -/

namespace Sys2Proof.Machine

/-! ### PUSH: the bytes are absorbed in order, whatever the groups (41_stream.md R89) -/

theorem absorb_withLenDin (x : Byte) (s : State) (len : Counter) (din : Word) :
    absorb x { s with len := len, din := din } = { absorb x s with len := len, din := din } := by
  unfold absorb
  dsimp only
  split <;> rfl

/-- Absorbing bytes reads neither `LEN` nor `DIN`. -/
theorem absorbAll_withLenDin (xs : List Byte) (s : State) (len : Counter) (din : Word) :
    absorbAll xs { s with len := len, din := din } = { absorbAll xs s with len := len, din := din } := by
  induction xs generalizing s with
  | nil => rfl
  | cons x xs ih => simp only [absorbAll_cons, absorb_withLenDin, ih]

/-- A word of four bytes gives them back (00_scope.md R13). -/
theorem wordBytes_be32 (b0 b1 b2 b3 : Byte) : wordBytes (be32 b0 b1 b2 b3) = [b0, b1, b2, b3] := by
  have hbyte (k : Nat) (w : Word) (b : Byte) (h : w.toNat / 2 ^ k % 2 ^ 8 = b.toNat) : w.extractLsb' k 8 = b := by
    apply BitVec.eq_of_toNat_eq
    rw [BitVec.extractLsb'_toNat, Nat.shiftRight_eq_div_pow, h]
  have hsum : (be32 b0 b1 b2 b3).toNat =
      2 ^ 8 * (2 ^ 8 * (2 ^ 8 * b0.toNat + b1.toNat) + b2.toNat) + b3.toNat := by
    simp only [be32, toNat_append_eq_add]
  have h0 := b0.isLt
  have h1 := b1.isLt
  have h2 := b2.isLt
  have h3 := b3.isLt
  rw [wordBytes, hbyte 24 _ b0 (by omega), hbyte 16 _ b1 (by omega), hbyte 8 _ b2 (by omega),
    hbyte 0 _ b3 (by omega)]

theorem updateBytes_be32 (nb : BitVec 3) (b0 b1 b2 b3 : Byte) :
    updateBytes nb (be32 b0 b1 b2 b3) = [b0, b1, b2, b3].take nb.toNat := by
  rw [updateBytes, wordBytes_be32]

/-- A group of a PUSH: the first bytes of a word of `DIN`, appended and counted. -/
theorem runTxns_wdin_updateBytes {s : State} {nb : BitVec 3} {v : Word} {xs : List Byte} (hxs : updateBytes nb v = xs)
    (hnb : nb.toNat ≤ 4) (hr : s.ready = true) (hl : s.len.toNat + xs.length ≤ Config.lenMax) :
    runTxns [wdin v, cmd (.update nb)] s =
      .next { absorbAll xs s with len := s.len + BitVec.ofNat 64 xs.length, din := v } := by
  subst hxs
  have hlength := updateBytes_length nb v hnb
  have hdec : decode (encode (.update nb)) = some (.update nb) :=
    (decode_encode _).trans (if_pos (by simpa [Instr.wf] using hnb))
  have hupdate := exec_update_accepted (s := { s with din := v }) hnb hr (hlength ▸ hl)
  have hcount : nb.setWidth 64 = BitVec.ofNat 64 nb.toNat := (BitVec.ofNat_toNat 64 nb).symm
  rw [runTxns_cons_next (runTxn_wdin v s), runTxns_cons_next ((runTxn_cmd hdec _).trans hupdate), runTxns]
  simp only [effect, absorbAll_withLenDin (updateBytes nb v) s s.len v, hcount, hlength]

/-- PUSH within the limit appends its bytes and counts them; of the rest it changes `DIN` alone
(30_encoding.md R67). -/
theorem runTxns_push (bs : List Byte) {s : State} (hr : s.ready = true)
    (hl : s.len.toNat + bs.length ≤ Config.lenMax) : ∃ din, runTxns (push bs) s =
      .next { absorbAll bs s with len := s.len + BitVec.ofNat 64 bs.length, din := din } := by
  induction bs using push.induct generalizing s with
  | case1 => exact ⟨s.din, by simp [push, runTxns]⟩
  | case2 b0 => exact ⟨_, runTxns_wdin_updateBytes (updateBytes_be32 1 b0 0 0 0) (by decide) hr hl⟩
  | case3 b0 b1 => exact ⟨_, runTxns_wdin_updateBytes (updateBytes_be32 2 b0 b1 0 0) (by decide) hr hl⟩
  | case4 b0 b1 b2 => exact ⟨_, runTxns_wdin_updateBytes (updateBytes_be32 3 b0 b1 b2 0) (by decide) hr hl⟩
  | case5 b0 b1 b2 b3 rest ih =>
    simp only [List.length_cons] at hl
    have hfirst := runTxns_wdin_updateBytes (xs := [b0, b1, b2, b3]) (updateBytes_be32 4 b0 b1 b2 b3) (by decide) hr
      (by simp; omega)
    set t : State := { absorbAll [b0, b1, b2, b3] s with
      len := s.len + BitVec.ofNat 64 [b0, b1, b2, b3].length, din := be32 b0 b1 b2 b3 } with ht
    have hlen : t.len.toNat = s.len.toNat + 4 := by
      simp only [Config.lenMax] at hl
      simp [ht]
      omega
    obtain ⟨din, hrest⟩ := ih (s := t) ((absorbAll_ready _ s).trans hr) (by omega)
    refine ⟨din, (runTxns_append hfirst).trans (hrest.trans ?_)⟩
    rw [ht, absorbAll_withLenDin, ← absorbAll_append]
    simp [BitVec.add_assoc, ← BitVec.ofNat_add, Nat.add_comm 4]

/-! ### RESTORE (42_midstate.md R109) -/

/-- A predicate that each group of transactions carries on holds after all of them. -/
theorem runTxns_flatMap_finRange {m : Nat} {group : Fin m → List Txn} {s : State} (P : Nat → State → Prop)
    (h0 : P 0 s)
    (hstep : ∀ (i : Fin m) (u : State), P i.val u → ∃ t, runTxns (group i) u = .next t ∧ P (i.val + 1) t) :
    ∃ t, runTxns ((List.finRange m).flatMap group) s = .next t ∧ P m t := by
  induction m with
  | zero => exact ⟨s, rfl, h0⟩
  | succ m ih =>
    obtain ⟨u, hu, hpu⟩ := ih fun i => hstep i.castSucc
    obtain ⟨t, ht, hpt⟩ := hstep (Fin.last m) u hpu
    refine ⟨t, ?_, hpt⟩
    rw [List.finRange_succ_last, List.flatMap_append, List.flatMap_map, runTxns_append hu]
    simpa using ht

/-- A load: a word is written to `DIN`, and the command takes it from there (42_midstate.md R103). -/
theorem runTxns_wdin_load {i : Instr} {s : State} (hi : ∀ u, checks i u = [(u.ready, .stillReady)])
    (hwf : i.wf = true) (hr : s.ready = false) (v : Word) :
    runTxns [wdin v, cmd i] s = .next (effect i { s with din := v }) := by
  have hdec : decode (encode i) = some i := (decode_encode i).trans (if_pos hwf)
  have hload := exec_accepted_of_finalized (hi { s with din := v }) hr
  rw [runTxns_cons_next (runTxn_wdin v s), runTxns_cons_next ((runTxn_cmd hdec _).trans hload), runTxns]

/-- The first `n` loads of `H` have run on `s`: beside `H` they change `DIN` and `DVALID` alone (42_midstate.md
R104). -/
structure LoadedH (s : State) (h : HashState) (n : Nat) (t : State) : Prop where
  frame : t = { s with h := t.h, din := t.din, dvalid := t.dvalid }
  loaded : ∀ k : Fin 8, k.val < n → t.h[k] = h[k]

theorem LoadedH.next {s t : State} {h : HashState} {i : Fin 8} (ht : LoadedH s h i.val t) :
    LoadedH s h (i.val + 1) (effect (.ldh i) { t with din := h[i] }) where
  frame := by
    rw [ht.frame]
    rfl
  loaded k hk := by
    by_cases hki : k = i
    · simp [effect, hki]
    · have hne : i.val ≠ k.val := fun hv => hki (Fin.ext hv.symm)
      simpa [effect, hne] using ht.loaded k (by omega)

theorem runTxns_restoreH {s : State} (hr : s.ready = false) (h : HashState) :
    ∃ t, runTxns (restoreH h) s = .next t ∧ LoadedH s h 8 t :=
  runTxns_flatMap_finRange (LoadedH s h) ⟨rfl, by simp⟩ fun i _ hu =>
    ⟨_, runTxns_wdin_load (fun _ => rfl) rfl ((congrArg State.ready hu.frame).trans hr) h[i], hu.next⟩

/-- A word loaded into the buffer is its four bytes at its place (42_midstate.md R105). -/
theorem setBufWord_eq_fill (b : Block) (j : Fin 16) (w : Word) :
    setBufWord b j w = fill b (4 * j.val) (wordBytes w) := by
  rw [wordBytes, ← fill_cons, ← fill_cons, ← fill_cons, ← fill_cons, fill_nil, setBufWord]

/-- The first `n` loads of the buffer have run on `s`: beside `BUF` they change `DIN` and `DVALID` alone
(42_midstate.md R105). -/
structure LoadedBuf (s : State) (w : Vector Word 16) (n : Nat) (t : State) : Prop where
  frame : t = { s with buf := t.buf, din := t.din, dvalid := t.dvalid }
  loaded : ∀ k : Fin 16, k.val < n → bufWord t.buf k = w[k]

theorem LoadedBuf.next {s t : State} {w : Vector Word 16} {j : Fin 16} (ht : LoadedBuf s w j.val t) :
    LoadedBuf s w (j.val + 1) (effect (.ldbuf j) { t with din := w[j] }) where
  frame := by
    rw [ht.frame]
    rfl
  loaded k hk := by
    simp only [effect, setBufWord_eq_fill]
    by_cases hkj : k = j
    · subst hkj
      exact bufWord_fill_same _ k _
    · have hne : k.val ≠ j.val := fun hv => hkj (Fin.ext hv)
      exact (bufWord_fill_ne _ hkj _).trans (ht.loaded k (by omega))

theorem runTxns_restoreBuf {s : State} (hr : s.ready = false) (w : Vector Word 16) :
    ∃ t, runTxns (restoreBuf w) s = .next t ∧ LoadedBuf s w 16 t :=
  runTxns_flatMap_finRange (LoadedBuf s w) ⟨rfl, by simp⟩ fun j _ hu =>
    ⟨_, runTxns_wdin_load (fun _ => rfl) rfl ((congrArg State.ready hu.frame).trans hr) w[j], hu.next⟩

/-- The two loads of the counter leave the two words, whatever it was (42_midstate.md R106, R107). -/
theorem setLenHi_setLenLo (l : Counter) (lo hi : Word) : setLenHi (setLenLo l lo) hi = hi ++ lo := by
  have hlow : lenLo (setLenLo l lo) = lo := by
    apply BitVec.eq_of_toNat_eq
    rw [lenLo_toNat, setLenLo, toNat_append_eq_add, Nat.mul_add_mod]
    exact Nat.mod_eq_of_lt lo.isLt
  rw [setLenHi, hlow]

theorem runTxns_loadLen {s : State} (hr : s.ready = false) (lo hi : Word) :
    runTxns [wdin lo, cmd .ldlenlo, wdin hi, cmd .ldlenhi] s =
      .next { s with len := hi ++ lo, dvalid := false, din := hi } := by
  have hlo := runTxns_wdin_load (i := .ldlenlo) (fun _ => rfl) rfl hr lo
  have hhi := runTxns_wdin_load (i := .ldlenhi) (s := effect .ldlenlo { s with din := lo }) (fun _ => rfl) rfl hr hi
  refine ((runTxns_append (us := [wdin hi, cmd .ldlenhi]) hlo).trans hhi).trans ?_
  simp only [effect, setLenHi_setLenLo]

/-- RESTORE into a Finalized engine, its counter within the limit, as one update of the state (42_midstate.md R108,
R109). -/
theorem runTxns_restore {s : State} (hr : s.ready = false) (h : HashState) (w : Vector Word 16) {lo hi : Word}
    (hl : (hi ++ lo : Counter).toNat ≤ Config.lenMax) :
    ∃ buf, (∀ j : Fin 16, bufWord buf j = w[j]) ∧ runTxns (restore h w lo hi) s = .next { s with
      h := h, buf := zeroFrom ((hi ++ lo : Counter).toNat % 64) buf, buflen := (hi ++ lo : Counter).setWidth 6
      len := hi ++ lo, ready := true, dvalid := false, din := hi } := by
  obtain ⟨t, hrunH, htH⟩ := runTxns_restoreH hr h
  have hrt : t.ready = false := (congrArg State.ready htH.frame).trans hr
  obtain ⟨u, hrunBuf, huBuf⟩ := runTxns_restoreBuf hrt w
  have hru : u.ready = false := (congrArg State.ready huBuf.frame).trans hrt
  have hh : t.h = h := Vector.ext fun k hk => htH.loaded ⟨k, hk⟩ hk
  refine ⟨u.buf, fun j => huBuf.loaded j j.isLt, ?_⟩
  have hresume := (runTxn_cmd (i := .resume) rfl _).trans
    (exec_resume_accepted (s := { u with len := hi ++ lo, dvalid := false, din := hi }) hru hl)
  calc runTxns (restore h w lo hi) s
    _ = runTxns ([wdin lo, cmd .ldlenlo, wdin hi, cmd .ldlenhi] ++ [cmd .resume]) u :=
      runTxns_append ((runTxns_append hrunH).trans hrunBuf)
    _ = runTxns [cmd .resume] { u with len := hi ++ lo, dvalid := false, din := hi } :=
      runTxns_append (runTxns_loadLen hru lo hi)
    _ = _ := runTxns_cons_next hresume
    _ = _ := by
      rw [huBuf.frame, htH.frame, hh]
      rfl

/-- A whole block of bytes written from position 0 on is the block, whatever stood there. -/
theorem fill_zero_toList (old b : Block) : fill old 0 b.toList = b := by
  apply Vector.ext
  intro j hj
  rw [fill_getElem _ _ _ hj]
  simp [hj]

end Sys2Proof.Machine

namespace Sys2Proof

open Machine

/-- Settles O58: RESTORE leaves `H = S` and `BUFLEN` 0, and the 64 bytes of PUSH are exactly the block that the last
of them compresses. -/
theorem anyCompressionThroughTheMidstate : Obligations.AnyCompressionThroughTheMidstate := by
  intro e s b hr
  obtain ⟨buf, -, hrestore⟩ := runTxns_restore hr s (Vector.replicate 16 0) (lo := 0) (hi := 0) (by decide)
  obtain ⟨din, hpush⟩ := runTxns_push b.toList
    (s := { e with h := s, buf := zeroFrom 0 buf, buflen := 0, len := 0, ready := true, dvalid := false, din := 0 })
    rfl (by simp [Config.lenMax])
  rw [absorbAll_of_full _ _ (by simp) (by simp)] at hpush
  exact ⟨_, (runTxns_append hrestore).trans hpush, congrArg (compress s) (fill_zero_toList _ b), rfl, by simp, rfl⟩

end Sys2Proof
end

section
/-! PROOF. The streaming commands as one update of the state each: the bytes of an UPDATE and of the padding at their
places in the buffer and in the compressed blocks (spec/41_stream.md R88 to R96, R98). -/

namespace Sys2Proof.Machine

/-! ### Bytes at their places in a block -/

/-- Byte `k` of an UPDATE is byte `k` of `DIN`, counted from the most significant (20_memory.md R47). -/
theorem updateBytes_getElem? {nb : BitVec 3} (hnb : nb.toNat ≤ 4) (din : Word) {k : Nat} (hk : k < nb.toNat) :
    (updateBytes nb din)[k]? = some (din.extractLsb' (24 - 8 * k) 8) := by
  rw [updateBytes, List.getElem?_take_of_lt hk]
  exact wordBytes_getElem? din ⟨k, by omega⟩

/-- Bytes that reach the end of the block make it with the bytes before them, whatever stood behind. -/
theorem fill_eq_blockAt (b : Block) {n : Nat} {xs : List Byte} (hfull : n + xs.length = 64) :
    fill b n xs = blockAt (b.toList.take n ++ xs) 0 := by
  apply Vector.ext
  intro j hj
  rw [fill_getElem _ _ _ hj, blockAt, Vector.getElem_ofFn]
  have hlen : (b.toList.take n).length = n := by simp; omega
  by_cases hjn : j < n
  · rw [if_neg (by omega)]
    simp [List.getElem?_append_left, hjn, hlen]
  · rw [if_pos (by omega)]
    simp [List.getElem?_append_right, hlen, Nat.le_of_not_lt hjn]

/-- `absorbAll_of_full`, the completed block written as a byte string. -/
theorem absorbAll_blockAt {xs : List Byte} {s : State} (hfull : s.buflen.toNat + xs.length = 64) :
    absorbAll xs s = { s with
      h := compress s.h (blockAt (s.buf.toList.take s.buflen.toNat ++ xs) 0), buf := zeroBlock, buflen := 0 } := by
  have hlt := s.buflen.isLt
  rw [absorbAll_of_full xs s (List.ne_nil_of_length_pos (by omega)) hfull, fill_eq_blockAt _ hfull]

/-- Bytes that complete a block and less than another: the first of them fill the block, the others start the next in a
cleared buffer (41_stream.md R88). -/
theorem absorbAll_of_ge (xs : List Byte) (s : State) (hge : 64 ≤ s.buflen.toNat + xs.length)
    (hlt : s.buflen.toNat + xs.length < 128) :
    absorbAll xs s = { s with
      h := compress s.h (fill s.buf s.buflen.toNat (xs.take (64 - s.buflen.toNat)))
      buf := fill zeroBlock 0 (xs.drop (64 - s.buflen.toNat))
      buflen := BitVec.ofNat 6 (s.buflen.toNat + xs.length - 64) } := by
  have hb := s.buflen.isLt
  have htake : (xs.take (64 - s.buflen.toNat)).length = 64 - s.buflen.toNat := by simp; omega
  have hdrop : (xs.drop (64 - s.buflen.toNat)).length = s.buflen.toNat + xs.length - 64 := by simp; omega
  have hfirst := absorbAll_of_full (xs.take (64 - s.buflen.toNat)) s
    (List.ne_nil_of_length_pos (by omega)) (by omega)
  conv_lhs => rw [← List.take_append_drop (64 - s.buflen.toNat) xs]
  rw [absorbAll_append, hfirst, absorbAll_of_lt _ _ (by simp; omega), hdrop]
  simp

/-! ### UPDATE (41_stream.md R89) -/

/-- UPDATE is rejected while Finalized: the check of its encoding passes, the next fails. -/
theorem exec_update_notReady {nb : BitVec 3} {s : State} (hnb : nb.toNat ≤ 4) (hr : s.ready = false) :
    exec (.update nb) s = .next (raiseError .notReady s) := by
  rw [exec_eq_guarded, checks, hr, decide_eq_false (Nat.not_lt.mpr hnb), guarded_pass, Bool.not_false, guarded_fail]

/-- UPDATE is rejected past the limit: the checks before the count pass (41_stream.md R90). -/
theorem exec_update_lenOvf {nb : BitVec 3} {s : State} (hnb : nb.toNat ≤ 4) (hr : s.ready = true)
    (hover : Config.lenMax < s.len.toNat + nb.toNat) : exec (.update nb) s = .next (raiseError .lenOvf s) := by
  rw [exec_eq_guarded, checks, hr, decide_eq_false (Nat.not_lt.mpr hnb), lenExceeds_eq_true.mpr hover, guarded_pass,
    Bool.not_true, guarded_pass, guarded_fail]

theorem len_add_setWidth (len : Counter) (nb : BitVec 3) :
    len + nb.setWidth 64 = BitVec.ofNat 64 (len.toNat + nb.toNat) := by
  rw [BitVec.ofNat_add, BitVec.ofNat_toNat, BitVec.ofNat_toNat, BitVec.setWidth_eq]

section Bytes

variable {nb : BitVec 3} (hnb : nb.toNat ≤ 4) (din : Word) (b : Block) (n : Nat)
include hnb

/-- The bytes of an UPDATE written from position `n` on. -/
theorem fill_updateBytes : fill b n (updateBytes nb din) = Vector.ofFn fun j : Fin 64 =>
    if n ≤ j.val ∧ j.val < n + nb.toNat then din.extractLsb' (24 - 8 * (j.val - n)) 8 else b[j] := by
  apply Vector.ext
  intro j hj
  rw [fill_getElem _ _ _ hj, Vector.getElem_ofFn, updateBytes_length nb din hnb]
  split
  · next hin => simp [updateBytes_getElem? hnb din (show j - n < nb.toNat by omega)]
  · rfl

/-- The bytes of an UPDATE that complete the block from position `n` on. -/
theorem fill_updateBytes_take (hge : 64 ≤ n + nb.toNat) :
    fill b n ((updateBytes nb din).take (64 - n)) = Vector.ofFn fun j : Fin 64 =>
      if n ≤ j.val then din.extractLsb' (24 - 8 * (j.val - n)) 8 else b[j] := by
  apply Vector.ext
  intro j hj
  rw [fill_getElem _ _ _ hj, Vector.getElem_ofFn, List.length_take, updateBytes_length nb din hnb]
  by_cases hin : n ≤ j
  · rw [if_pos (by omega), if_pos hin, List.getD_eq_getElem?_getD, List.getElem?_take_of_lt (by omega),
      updateBytes_getElem? hnb din (by omega), Option.getD_some]
  · rw [if_neg (by omega), if_neg hin]
    rfl

/-- The bytes of an UPDATE past the block that `64 - n` of them complete, in a cleared buffer. -/
theorem fill_updateBytes_drop (hn : n < 64) :
    fill zeroBlock 0 ((updateBytes nb din).drop (64 - n)) = Vector.ofFn fun j : Fin 64 =>
      if j.val < n + nb.toNat - 64 then din.extractLsb' (24 - 8 * (64 - n + j.val)) 8 else 0 := by
  apply Vector.ext
  intro j hj
  rw [fill_getElem _ _ _ hj, Vector.getElem_ofFn, List.length_drop, updateBytes_length nb din hnb]
  by_cases hin : j < n + nb.toNat - 64
  · rw [if_pos (by omega), if_pos hin, List.getD_eq_getElem?_getD, List.getElem?_drop, Nat.sub_zero,
      updateBytes_getElem? hnb din (by omega), Option.getD_some]
  · rw [if_neg (by omega), if_neg hin]
    exact zeroBlock_getElem ⟨j, hj⟩

end Bytes

/-! ### FINALIZE (41_stream.md R93 to R95) -/

/-- With at most 55 buffered bytes the padding completes the block. -/
theorem absorbPadding_of_le {s : State} (hb : s.buflen.toNat ≤ 55) : absorbPadding s = { s with
      h := compress s.h (blockAt (s.buf.toList.take s.buflen.toNat ++ [(0x80 : Byte)] ++
        List.replicate (55 - s.buflen.toNat) (0x00 : Byte) ++ be64Bytes (s.len <<< 3)) 0)
      buf := zeroBlock, buflen := 0 } := by
  have hzeros : zerosTo56 (absorb 0x80 s).buflen.toNat = 55 - s.buflen.toNat := by
    rw [absorb_buflen, buflen_add_one s (by omega), zerosTo56]
    omega
  rw [absorbPadding_eq, hzeros, absorbAll_blockAt (by simp; omega)]
  simp only [List.append_assoc]

/-- With 56 buffered bytes or more, 0x80 and zeros complete the block, and the bit length ends a second one. -/
theorem absorbPadding_of_ge {s : State} (hb : 56 ≤ s.buflen.toNat) : absorbPadding s = { s with
      h := compress (compress s.h (blockAt (s.buf.toList.take s.buflen.toNat ++ [(0x80 : Byte)] ++
          List.replicate (63 - s.buflen.toNat) (0x00 : Byte)) 0))
        (blockAt (List.replicate 56 (0x00 : Byte) ++ be64Bytes (s.len <<< 3)) 0)
      buf := zeroBlock, buflen := 0 } := by
  have hlt := s.buflen.isLt
  have hzeros : zerosTo56 (absorb 0x80 s).buflen.toNat = (63 - s.buflen.toNat) + 56 := by
    rw [absorb_buflen, BitVec.toNat_add, zerosTo56]
    simp
    omega
  have hsplit : [(0x80 : Byte)] ++ List.replicate ((63 - s.buflen.toNat) + 56) (0x00 : Byte) ++
      be64Bytes (s.len <<< 3) = ([(0x80 : Byte)] ++ List.replicate (63 - s.buflen.toNat) (0x00 : Byte)) ++
        (List.replicate 56 (0x00 : Byte) ++ be64Bytes (s.len <<< 3)) := by
    simp only [List.replicate_add, List.append_assoc]
  rw [absorbPadding_eq, hzeros, hsplit, absorbAll_append, absorbAll_blockAt (s := s) (by simp; omega),
    absorbAll_blockAt (by simp)]
  simp only [BitVec.ofNat_eq_ofNat, BitVec.toNat_ofNat, Nat.zero_mod, List.take_zero, List.nil_append,
    List.append_assoc]

end Sys2Proof.Machine

namespace Sys2Proof

open Machine

/-- Settles O27: the bytes stand behind the valid ones (`absorbAll_of_lt`). -/
theorem updateWithinTheBlock : Obligations.UpdateWithinTheBlock := by
  intro s nb hnb hr hl hlt
  have hlength := updateBytes_length nb s.din hnb
  have hcount : s.buflen + BitVec.ofNat 6 nb.toNat = BitVec.ofNat 6 (s.buflen.toNat + nb.toNat) := by
    rw [BitVec.ofNat_add, BitVec.ofNat_toNat 6 s.buflen, BitVec.setWidth_eq]
  rw [exec_update_accepted hnb hr hl, effect, absorbAll_of_lt _ s (by omega), fill_updateBytes hnb, hlength, hcount,
    len_add_setWidth]

/-- Settles O28: the first bytes fill the block, the others start the next (`absorbAll_of_ge`). -/
theorem updateCompletesTheBlock : Obligations.UpdateCompletesTheBlock := by
  intro s nb hnb hr hl hge
  have hlt := s.buflen.isLt
  have hlength := updateBytes_length nb s.din hnb
  rw [exec_update_accepted hnb hr hl, effect, absorbAll_of_ge _ s (by omega) (by omega),
    fill_updateBytes_take hnb s.din s.buf _ hge, fill_updateBytes_drop hnb s.din _ hlt, hlength, len_add_setWidth]

/-- Settles O31: the padding completes the block. -/
theorem finalizeInOneBlock : Obligations.FinalizeInOneBlock := by
  intro s hr hb
  rw [exec_finalize_accepted hr, effect, absorbPadding_of_le hb]
  rfl

/-- Settles O32: the padding completes the block and fills another. -/
theorem finalizeInTwoBlocks : Obligations.FinalizeInTwoBlocks := by
  intro s hr hb
  rw [exec_finalize_accepted hr, effect, absorbPadding_of_ge hb]
  rfl

/-- Settles O23: the count is the first check that fails. -/
theorem countPastTheLimitIsRejected : Obligations.CountPastTheLimitIsRejected :=
  fun _ _ hnb hr hover => exec_update_lenOvf hnb hr hover

/-- Settles O29: no byte is absorbed and the count grows by 0; its check passes by the invariant. -/
theorem updateOfNoBytes : Obligations.UpdateOfNoBytes := by
  intro s
  have hword : runTxn (.write 0x000 4 0x01000000) s = exec (.update 0) s := runTxn_cmd (i := .update 0) rfl s
  rw [hword]
  refine ⟨fun hi hr => ?_, exec_update_notReady (by decide)⟩
  have hnothing : effect (.update 0) s = s := by simp [effect, updateBytes]
  rw [exec_update_accepted (nb := 0) (by decide) hr (hi.len_of_ready hr), hnothing]

/-- Settles O33: the one check of REINIT, and its effect written from either state. -/
theorem reinitReturnsToCreated : Obligations.ReinitReturnsToCreated := by
  refine ⟨rfl, fun s => ⟨fun hr => exec_of_first_check (rest := []) (by rw [checks, hr]), fun hr => ?_⟩⟩
  have haccepted := exec_accepted_of_finalized (i := .reinit) rfl hr
  exact ⟨haccepted, haccepted⟩

end Sys2Proof
end

section
/-! PROOF. Whole messages: absorbing bytes is hashing the byte string block by block, so UPDATE extends the message and
FINALIZE leaves its SHA-256 (spec/41_stream.md R92 to R99). -/

namespace Sys2Proof.Machine

/-! ### The blocks of a byte string -/

theorem blockAt_getElem (m : List Byte) (k : Nat) {j : Nat} (hj : j < 64) :
    (blockAt m k)[j] = m.getD (64 * k + j) 0 := by
  simp [blockAt]

/-- Past the end of the string a block is all zeros. -/
theorem blockAt_of_le {m : List Byte} {k : Nat} (hk : m.length ≤ 64 * k) : blockAt m k = zeroBlock := by
  apply Vector.ext
  intro j hj
  rw [blockAt_getElem _ _ hj, List.getD_eq_default _ _ (by omega)]
  exact (zeroBlock_getElem ⟨j, hj⟩).symm

/-- A block that is complete does not see what follows. -/
theorem blockAt_append_of_lt {m : List Byte} (xs : List Byte) {k : Nat} (hk : k < m.length / 64) :
    blockAt (m ++ xs) k = blockAt m k := by
  apply Vector.ext
  intro j hj
  rw [blockAt_getElem _ _ hj, blockAt_getElem _ _ hj, List.getD_append _ _ _ _ (by omega)]

/-- One byte more stands at its place in the last block. -/
theorem blockAt_append_singleton (m : List Byte) (x : Byte) :
    blockAt (m ++ [x]) (m.length / 64) =
      (blockAt m (m.length / 64)).set (m.length % 64) x (Nat.mod_lt _ (by decide)) := by
  apply Vector.ext
  intro j hj
  rw [Vector.getElem_set, blockAt_getElem _ _ hj, blockAt_getElem _ _ hj]
  rcases Nat.lt_trichotomy (64 * (m.length / 64) + j) m.length with h | h | h
  · rw [if_neg (by omega), List.getD_append _ _ _ _ h]
  · rw [if_pos (by omega), h]
    simp
  · rw [if_neg (by omega), List.getD_eq_default _ _ (by simp; omega), List.getD_eq_default _ _ (by omega)]

theorem hashBlocks_zero (s : HashState) (m : List Byte) : hashBlocks s m 0 = s := by
  simp [hashBlocks]

theorem hashBlocks_succ (s : HashState) (m : List Byte) (n : Nat) :
    hashBlocks s m (n + 1) = compress (hashBlocks s m n) (blockAt m n) := by
  simp [hashBlocks, List.range_succ]

/-- The hash of complete blocks does not see what follows them. -/
theorem hashBlocks_append (s : HashState) {m : List Byte} (xs : List Byte) {n : Nat} (hn : n ≤ m.length / 64) :
    hashBlocks s (m ++ xs) n = hashBlocks s m n := by
  induction n with
  | zero => rw [hashBlocks_zero, hashBlocks_zero]
  | succ n ih => rw [hashBlocks_succ, hashBlocks_succ, ih (by omega), blockAt_append_of_lt xs (by omega)]

/-! ### Absorbing is hashing (41_stream.md R88, R97) -/

/-- `H` and the buffer are those of the byte string `m` absorbed from `IV`: what `Holds` says of them. The padding is
absorbed too, and not counted in `LEN`. -/
structure Absorbed (s : State) (m : List Byte) : Prop where
  h : s.h = hashBlocks iv m (m.length / 64)
  buflen : s.buflen = BitVec.ofNat 6 m.length
  buf : s.buf = blockAt m (m.length / 64)

theorem Absorbed.absorb {s : State} {m : List Byte} (hm : Absorbed s m) (x : Byte) :
    Absorbed (absorb x s) (m ++ [x]) := by
  have hlen : (m ++ [x]).length = m.length + 1 := by simp
  have hbuflen : s.buflen.toNat = m.length % 64 := by rw [hm.buflen, BitVec.toNat_ofNat]
  have hblock : s.buf.set s.buflen.toNat x = blockAt (m ++ [x]) (m.length / 64) := by
    simp only [blockAt_append_singleton, hm.buf, hbuflen]
  have hcount : s.buflen + 1 = BitVec.ofNat 6 (m ++ [x]).length := by
    rw [hlen, BitVec.ofNat_add, hm.buflen]
    rfl
  by_cases hfull : s.buflen.toNat + 1 = 64
  · have hdiv : (m.length + 1) / 64 = m.length / 64 + 1 := by omega
    have hnext := absorb_buflen x s
    rw [absorb_of_full x s hfull] at hnext ⊢
    constructor
    case h => simp only [hblock, hlen, hdiv, hashBlocks_succ, hashBlocks_append iv [x] (Nat.le_refl _), hm.h]
    case buflen => exact hnext.trans hcount
    case buf => exact (blockAt_of_le (by rw [hlen]; omega)).symm
  · have hdiv : (m.length + 1) / 64 = m.length / 64 := by omega
    rw [absorb_of_lt x s (by omega)]
    constructor
    case h => rw [hlen, hdiv, hashBlocks_append iv [x] (Nat.le_refl _), hm.h]
    case buflen => exact hcount
    case buf => rw [hlen, hdiv, ← hblock]

theorem Absorbed.absorbAll {s : State} {m : List Byte} (hm : Absorbed s m) (xs : List Byte) :
    Absorbed (absorbAll xs s) (m ++ xs) := by
  induction xs generalizing s m with
  | nil => simpa using hm
  | cons x xs ih => simpa using ih (hm.absorb x)

theorem absorbed_of_holds {s : State} {m : List Byte} (hm : Holds s m) : Absorbed s m := ⟨hm.h, hm.buflen, hm.buf⟩

/-- The bytes of accepted UPDATEs, absorbed and counted, extend the message; `DIN` may have changed. -/
theorem holds_append {s t : State} {m xs : List Byte} (hm : Holds s m) (hl : (m ++ xs).length ≤ Config.lenMax)
    (ht : t = { absorbAll xs s with len := s.len + BitVec.ofNat 64 xs.length, din := t.din }) :
    Holds t (m ++ xs) := by
  obtain ⟨hh, hbuflen, hbuf⟩ := (absorbed_of_holds hm).absorbAll xs
  rw [ht]
  constructor
  case ready => simpa using hm.ready
  case short => exact hl
  case len => simp only [hm.len, List.length_append, BitVec.ofNat_add]
  case h => exact hh
  case buflen => exact hbuflen
  case buf => exact hbuf

/-- The Created context has appended no byte: the hash of no block is `IV`, and the first block has no byte
(41_stream.md R100). -/
theorem holds_nil {s : State} (hr : s.ready = true) (hlen : s.len = 0) (hh : s.h = iv) (hbuflen : s.buflen = 0)
    (hbuf : s.buf = zeroBlock) : Holds s [] where
  ready := hr
  short := Nat.zero_le _
  len := hlen
  h := hh.trans (hashBlocks_zero _ _).symm
  buflen := hbuflen
  buf := hbuf.trans (blockAt_of_le (Nat.zero_le _)).symm

/-! ### The padding (41_stream.md R93, R94) -/

theorem pad_length (n : Nat) : (pad n).length = padZeros n + 9 := by
  simp [pad]

/-- The message and its padding end at a block boundary. -/
theorem padded_length_mod (n : Nat) : (n + (pad n).length) % 64 = 0 := by
  rw [pad_length, padZeros]
  omega

theorem ofNat_shiftLeft_three (n : Nat) : BitVec.ofNat 64 n <<< 3 = BitVec.ofNat 64 (n * 8) := by
  apply BitVec.eq_of_toNat_eq
  simp [Nat.shiftLeft_eq]

/-- The bytes that FINALIZE absorbs are the padding of the message's length. -/
theorem absorbPadding_eq_pad {s : State} {n : Nat} (hbuflen : s.buflen = BitVec.ofNat 6 n)
    (hlen : s.len = BitVec.ofNat 64 n) : absorbPadding s = absorbAll (pad n) s := by
  have hzeros : zerosTo56 (absorb 0x80 s).buflen.toNat = padZeros n := by
    rw [absorb_buflen, hbuflen, zerosTo56, padZeros]
    simp
    omega
  rw [absorbPadding_eq, hzeros, hlen, ofNat_shiftLeft_three, pad]

/-- FINALIZE of a context that has appended `m` leaves the SHA-256 of `m` and a cleared buffer (41_stream.md R96,
R97). -/
theorem exec_finalize_of_holds {s : State} {m : List Byte} (hm : Holds s m) : exec .finalize s = .next { s with
    h := sha256 m, buf := zeroBlock, buflen := 0, ready := false, dvalid := true } := by
  have hpad : Absorbed (absorbPadding s) (padded m) := by
    rw [absorbPadding_eq_pad hm.buflen hm.len]
    exact (absorbed_of_holds hm).absorbAll (pad m.length)
  have hend : (padded m).length % 64 = 0 := by
    rw [padded, List.length_append]
    exact padded_length_mod m.length
  have hbuf := hpad.buf.trans (blockAt_of_le (by omega))
  rw [exec_finalize_accepted hm.ready, effect, absorbPadding_frame, hpad.h, hbuf, absorbPadding_buflen, ← sha256]

/-- FINALIZE and the eight reads of the digest (41_stream.md R99). -/
theorem runTxns_finalize_rdDigest {s : State} {m : List Byte} (hm : Holds s m) :
    runTxns ([cmd .finalize] ++ rdDigest) s = .next { s with
      h := sha256 m, buf := zeroBlock, buflen := 0, ready := false, dvalid := true
      reads := s.reads ++ (sha256 m).toList } := by
  rw [List.singleton_append, runTxns_cons_next ((runTxn_cmd rfl s).trans (exec_finalize_of_holds hm)), runTxns_rdDigest]
  rfl

/-! ### A sequence of UPDATEs (41_stream.md R92) -/

/-- The UPDATEs of a chunked message absorb its bytes in order and count them; of the rest they change `DIN` alone. -/
theorem runTxns_updates (cs : List (Word × BitVec 3)) {s : State} (hr : s.ready = true)
    (hcs : ∀ c ∈ cs, c.2.toNat ≤ 4)
    (hl : s.len.toNat + (cs.flatMap fun c => updateBytes c.2 c.1).length ≤ Config.lenMax) :
    ∃ din, runTxns (cs.flatMap fun c => [wdin c.1, cmd (.update c.2)]) s =
      .next { absorbAll (cs.flatMap fun c => updateBytes c.2 c.1) s with
        len := s.len + BitVec.ofNat 64 (cs.flatMap fun c => updateBytes c.2 c.1).length, din := din } := by
  induction cs generalizing s with
  | nil => exact ⟨s.din, by simp [runTxns]⟩
  | cons c cs ih =>
    obtain ⟨hc, hcs⟩ := List.forall_mem_cons.mp hcs
    rw [List.flatMap_cons, List.length_append] at hl
    have hfirst := runTxns_wdin_updateBytes (xs := updateBytes c.2 c.1) rfl hc hr (by omega)
    have hlen : (s.len + BitVec.ofNat 64 (updateBytes c.2 c.1).length).toNat =
        s.len.toNat + (updateBytes c.2 c.1).length := by
      simp only [Config.lenMax] at hl
      rw [BitVec.toNat_add, BitVec.toNat_ofNat]
      omega
    obtain ⟨din, hrest⟩ := ih (s := { absorbAll (updateBytes c.2 c.1) s with
      len := s.len + BitVec.ofNat 64 (updateBytes c.2 c.1).length, din := c.1 })
      ((absorbAll_ready _ s).trans hr) hcs (by rw [hlen]; omega)
    refine ⟨din, (runTxns_append hfirst).trans (hrest.trans ?_)⟩
    rw [absorbAll_withLenDin, ← absorbAll_append]
    simp [BitVec.add_assoc, ← BitVec.ofNat_add]

end Sys2Proof.Machine

namespace Sys2Proof

open Machine

/-- Settles O50: all of it follows from the number of zeros. -/
theorem paddingFillsOneOrTwoBlocks : Obligations.PaddingFillsOneOrTwoBlocks := by
  intro n hn
  refine ⟨⟨padZeros n, ?_, ?_, ?_⟩, ?_, padded_length_mod n, ?_, ?_⟩
  · exact Nat.mod_lt _ (by decide)
  · rw [ofNat_shiftLeft_three, pad]
  · rw [padZeros]
    omega
  · rw [ofNat_shiftLeft_three, BitVec.toNat_ofNat]
    omega
  · rw [pad_length, padZeros]
    omega
  · rw [pad_length, padZeros]
    omega

/-- Settles O51: reset and REINIT leave the elements of `holds_nil`. -/
theorem createdContextIsEmpty : Obligations.CreatedContextIsEmpty :=
  ⟨holds_nil rfl rfl rfl rfl rfl, fun _ hr =>
    ⟨_, exec_accepted_of_finalized (i := .reinit) rfl hr, holds_nil rfl rfl rfl rfl rfl⟩⟩

/-- Settles O52: UPDATE absorbs its bytes and counts them. -/
theorem updateExtendsTheMessage : Obligations.UpdateExtendsTheMessage := by
  intro s m nb hm hnb hl
  have hlength := updateBytes_length nb s.din hnb
  have hlen : s.len.toNat = m.length := by
    rw [hm.len, BitVec.toNat_ofNat]
    omega
  refine ⟨_, exec_update_accepted hnb hm.ready (hlen ▸ hl), holds_append (xs := updateBytes nb s.din) hm ?_ ?_⟩
  · rw [List.length_append, hlength]
    exact hl
  · rw [effect, hlength, BitVec.ofNat_toNat]

/-- Settles O53: the digest registers show `H` while `DVALID` is 1. -/
theorem finalizeGivesSha256 : Obligations.FinalizeGivesSha256 :=
  fun _ _ hm => ⟨_, exec_finalize_of_holds hm, rfl, rfl, rfl, rfl, rfl, hm.len, fun i => regRead_digest i _⟩

/-- Settles O54: PUSH extends the empty message by its bytes, FINALIZE leaves the digest, RDDIGEST notes it. -/
theorem hashOperationReadsTheDigest : Obligations.HashOperationReadsTheDigest := by
  intro s m hs hl
  obtain ⟨din, hpush⟩ := runTxns_push m hs.ready (by rw [hs.len]; simpa [Config.lenMax] using hl)
  have hm : Holds { absorbAll m s with len := s.len + BitVec.ofNat 64 m.length, din := din } m :=
    holds_append hs hl rfl
  rw [AsmOp.expand, List.append_assoc, runTxns_append hpush, runTxns_finalize_rdDigest hm]
  exact ⟨_, rfl, by simp, by simp⟩

/-- Settles O55: both sequences absorb the same bytes. -/
theorem chunkingInvariance : Obligations.ChunkingInvariance := by
  intro s cs ds hr hcs hds hbytes hl
  obtain ⟨din, hrun⟩ := runTxns_updates cs hr hcs hl
  obtain ⟨din', hrun'⟩ := runTxns_updates ds hr hds (hbytes ▸ hl)
  have hsame : (cs.flatMap fun c => updateBytes c.2 c.1) = ds.flatMap fun d => updateBytes d.2 d.1 := hbytes
  rw [← hsame] at hrun'
  exact ⟨_, _, hrun, hrun', rfl, rfl, rfl, rfl, absorbAll_everRejected _ s, absorbAll_everRejected _ s⟩

end Sys2Proof
end

section
/-! PROOF. The midstate commands as one update of the state each: what each load writes, and RESUME
(spec/42_midstate.md R103 to R108). -/

namespace Sys2Proof

/-- A command word is its two fields at their weights (30_encoding.md R59). -/
theorem commandWord_eq_ofNat (opc : BitVec 8) (opd : BitVec 6) :
    commandWord opc opd = BitVec.ofNat 32 (opc.toNat * 2 ^ 24 + opd.toNat) := by
  apply BitVec.eq_of_toNat_eq
  have hopc := opc.isLt
  have hopd := opd.isLt
  change (opc ++ (0 : BitVec 18) ++ opd : BitVec (8 + 18 + 6)).toNat = _
  simp only [Machine.toNat_append_eq_add, BitVec.ofNat_eq_ofNat, BitVec.toNat_ofNat]
  omega

theorem encode_ldh (idx : Fin 8) : encode (.ldh idx) = 0x10000000 + BitVec.ofNat 32 idx.val := by
  rw [encode, commandWord_eq_ofNat, BitVec.toNat_ofNat, Nat.mod_eq_of_lt (by omega), BitVec.ofNat_add]
  rfl

theorem encode_ldbuf (idx : Fin 16) : encode (.ldbuf idx) = 0x11000000 + BitVec.ofNat 32 idx.val := by
  rw [encode, commandWord_eq_ofNat, BitVec.toNat_ofNat, Nat.mod_eq_of_lt (by omega), BitVec.ofNat_add]
  rfl

end Sys2Proof

namespace Sys2Proof.Machine

/-- While Ready the first check of REINIT, the loads and RESUME fails (42_midstate.md R103). -/
theorem exec_stillReady {i : Instr} {s : State} {rest : List (Bool × ErrCode)}
    (hi : checks i s = (s.ready, .stillReady) :: rest) (hr : s.ready = true) :
    exec i s = .next (raiseError .stillReady s) :=
  exec_of_first_check (by rw [hi, hr])

/-- RESUME past the limit: the check of `READY` passes, the next fails (42_midstate.md R108). -/
theorem exec_resume_lenOvf {s : State} (hr : s.ready = false) (hover : Config.lenMax < s.len.toNat) :
    exec .resume s = .next (raiseError .lenOvf s) := by
  have hexceeds : lenExceeds s.len 0 = true := lenExceeds_eq_true.mpr hover
  rw [exec_eq_guarded, checks, hr, hexceeds, guarded_pass, guarded_fail]

/-- A word loaded into the buffer, byte by byte (42_midstate.md R105). -/
theorem setBufWord_getElem (b : Block) (idx : Fin 16) (w : Word) (j : Fin 64) : (setBufWord b idx w)[j] =
    if j.val / 4 = idx.val then w.extractLsb' (24 - 8 * (j.val % 4)) 8 else b[j] := by
  rw [setBufWord_eq_fill, Fin.getElem_fin, fill_getElem _ _ _ j.isLt, wordBytes_length]
  by_cases hin : j.val / 4 = idx.val
  · have hk : j.val - 4 * idx.val = j.val % 4 := by omega
    have hbyte := wordBytes_getElem? w ⟨j.val % 4, Nat.mod_lt _ (by decide)⟩
    rw [if_pos (by omega), if_pos hin, hk, List.getD_eq_getElem?_getD, hbyte, Option.getD_some]
  · rw [if_neg (by omega), if_neg hin, Fin.getElem_fin]

/-- The low half of the counter is replaced, the high half stays (42_midstate.md R106). -/
theorem setLenLo_eq_ofNat (l : Counter) (w : Word) :
    setLenLo l w = BitVec.ofNat 64 (l.toNat / 2 ^ 32 * 2 ^ 32 + w.toNat) := by
  apply BitVec.eq_of_toNat_eq
  have hl := l.isLt
  have hw := w.isLt
  rw [setLenLo, toNat_append_eq_add, lenHi_toNat, BitVec.toNat_ofNat]
  omega

/-- The high half of the counter is replaced, the low half stays (42_midstate.md R107). -/
theorem setLenHi_eq_ofNat (l : Counter) (w : Word) :
    setLenHi l w = BitVec.ofNat 64 (w.toNat * 2 ^ 32 + l.toNat % 2 ^ 32) := by
  apply BitVec.eq_of_toNat_eq
  have hw := w.isLt
  rw [setLenHi, toNat_append_eq_add, lenLo_toNat, BitVec.toNat_ofNat]
  omega

/-- The bytes at or past `n` are the zeroed ones (42_midstate.md R108). -/
theorem zeroFrom_eq (n : Nat) (b : Block) :
    zeroFrom n b = Vector.ofFn fun j : Fin 64 => if n ≤ j.val then 0 else b[j] := by
  simp only [zeroFrom, ← not_lt, ite_not]

/-- The counter modulo the 64 bytes of a block (42_midstate.md R108). -/
theorem setWidth_six_eq_ofNat (l : Counter) : l.setWidth 6 = BitVec.ofNat 6 (l.toNat % 64) := by
  apply BitVec.eq_of_toNat_eq
  simp

end Sys2Proof.Machine

namespace Sys2Proof

open Machine

/-- Settles O35: the one check of LDH, and its effect; with `DVALID` 0 the digest registers read 0. -/
theorem ldhLoadsOneWord : Obligations.LdhLoadsOneWord := by
  intro s idx
  refine ⟨encode_ldh idx ▸ decode_encode _, exec_stillReady rfl, fun hr =>
    ⟨_, exec_accepted_of_finalized rfl hr, rfl, ?same, ?other, fun k => regRead_digest k _⟩⟩
  case same => simp [effect]
  case other =>
    intro k hk
    have hne : idx.val ≠ k.val := fun hv => hk (Fin.ext hv.symm)
    simp [effect, hne]

/-- Settles O36: the one check of LDBUF, and its effect byte by byte. -/
theorem ldbufLoadsOneWord : Obligations.LdbufLoadsOneWord := by
  intro s idx
  refine ⟨encode_ldbuf idx ▸ decode_encode _, exec_stillReady rfl, fun hr =>
    ⟨_, exec_accepted_of_finalized rfl hr, rfl, ?word, setBufWord_getElem s.buf idx s.din⟩⟩
  case word =>
    rw [effect, setBufWord_eq_fill]
    exact bufWord_fill_same s.buf idx s.din

/-- Settles O37: the one check of either load, and the halves as numbers. -/
theorem ldlenLoadsOneHalf : Obligations.LdlenLoadsOneHalf := by
  refine ⟨decode_encode .ldlenlo, decode_encode .ldlenhi, fun s =>
    ⟨fun hr => ⟨exec_stillReady rfl hr, exec_stillReady rfl hr⟩, fun hr => ?_⟩⟩
  rw [exec_accepted_of_finalized (i := .ldlenlo) rfl hr, exec_accepted_of_finalized (i := .ldlenhi) rfl hr,
    effect, effect, setLenLo_eq_ofNat, setLenHi_eq_ofNat]
  exact ⟨rfl, rfl⟩

/-- Settles O38: the two checks of RESUME in order, and its effect. -/
theorem resumeMakesReady : Obligations.ResumeMakesReady := by
  refine ⟨decode_encode .resume, fun s => ⟨exec_stillReady rfl, exec_resume_lenOvf, fun hr hl => ?_⟩⟩
  rw [exec_resume_accepted hr hl, effect, setWidth_six_eq_ofNat, zeroFrom_eq]

end Sys2Proof
end

section
/-! PROOF. The serialized midstate, read back word by word (spec/42_midstate.md R102). -/

namespace Sys2Proof.Machine

/-- Four bytes of a string that are those of a word are read as the word. -/
theorem wordAt_eq_of_bytes {bs : List Byte} {k : Nat} {w : Word}
    (h : ∀ j : Fin 4, bs[k + j.val]? = (wordBytes w)[j.val]?) : wordAt bs k = w := by
  have hbyte (j : Fin 4) : bs.getD (k + j.val) 0 = w.extractLsb' (24 - 8 * j.val) 8 := by
    rw [List.getD_eq_getElem?_getD, h, wordBytes_getElem?, Option.getD_some]
  have h0 : bs.getD k 0 = w.extractLsb' 24 8 := hbyte 0
  have h1 : bs.getD (k + 1) 0 = w.extractLsb' 16 8 := hbyte 1
  have h2 : bs.getD (k + 2) 0 = w.extractLsb' 8 8 := hbyte 2
  have h3 : bs.getD (k + 3) 0 = w.extractLsb' 0 8 := hbyte 3
  rw [wordAt, h0, h1, h2, h3, be32_bytes]

/-- A read behind the first part of a string does not see that part. -/
theorem wordAt_append_right (xs ys : List Byte) (k : Nat) : wordAt (xs ++ ys) (xs.length + k) = wordAt ys k := by
  have hskip (j : Nat) : (xs ++ ys).getD (xs.length + j) 0 = ys.getD j 0 := by
    simp [List.getElem?_append_right]
  simp only [wordAt, Nat.add_assoc, hskip]

theorem flatMap_wordBytes_length (ws : List Word) : (ws.flatMap wordBytes).length = 4 * ws.length := by
  simp [List.length_flatMap, Nat.mul_comm]

/-- Word `i` of a run of serialized words, whatever follows them. -/
theorem wordAt_flatMap_wordBytes (ws : List Word) (rest : List Byte) {i : Nat} (hi : i < ws.length) :
    wordAt (ws.flatMap wordBytes ++ rest) (4 * i) = ws[i] := by
  apply wordAt_eq_of_bytes
  intro j
  have hlt : 4 * i + j.val < (ws.flatMap wordBytes).length := by
    rw [flatMap_wordBytes_length]
    omega
  rw [List.getElem?_append_left hlt, getElem?_flatMap_wordBytes _ _ j.isLt, List.getElem?_eq_getElem hi,
    Option.bind_some]

theorem lenHi_append_lenLo (l : Counter) : lenHi l ++ lenLo l = l := by
  apply BitVec.eq_of_toNat_eq
  rw [toNat_append_eq_add, lenHi_toNat, lenLo_toNat]
  omega

/-- `BE64(LEN)` is the two halves of the counter, the high one first (00_scope.md R13). -/
theorem be64Bytes_eq_flatMap (l : Counter) : be64Bytes l = [lenHi l, lenLo l].flatMap wordBytes := rfl

/-! ### The parts of the string, at their places (42_midstate.md R102) -/

namespace MidstateRead

variable (m : MidstateRead)

/-- The string as its four parts in order. -/
theorem serialize_eq : m.serialize = m.h.toList.flatMap wordBytes ++ (m.bufw.toList.flatMap wordBytes ++
    (m.buflen.setWidth 8 :: be64Bytes m.len)) := by
  simp [serialize]

theorem serialize_length : m.serialize.length = 105 := by
  simp [serialize_eq]

theorem wordAt_serialize_h (i : Fin 8) : wordAt m.serialize (4 * i.val) = m.h[i] := by
  rw [serialize_eq, wordAt_flatMap_wordBytes _ _ (by simp)]
  simp

/-- Past the 32 bytes of `H` stand the other parts. -/
theorem wordAt_serialize_past_h (k : Nat) : wordAt m.serialize (32 + k) =
    wordAt (m.bufw.toList.flatMap wordBytes ++ (m.buflen.setWidth 8 :: be64Bytes m.len)) k := by
  have hlength : (m.h.toList.flatMap wordBytes).length = 32 := by simp
  rw [serialize_eq, ← hlength, wordAt_append_right]

theorem wordAt_serialize_bufw (j : Fin 16) : wordAt m.serialize (32 + 4 * j.val) = m.bufw[j] := by
  rw [wordAt_serialize_past_h, wordAt_flatMap_wordBytes _ _ (by simp)]
  simp

/-- The words of the counter stand behind the 64 bytes of the buffer and the byte of its count. -/
theorem wordAt_serialize_len (i : Fin 2) : wordAt m.serialize (97 + 4 * i.val) = [lenHi m.len, lenLo m.len][i.val] := by
  have hlength : (m.bufw.toList.flatMap wordBytes ++ [m.buflen.setWidth 8]).length = 65 := by simp
  calc wordAt m.serialize (97 + 4 * i.val)
    _ = wordAt (m.bufw.toList.flatMap wordBytes ++ [m.buflen.setWidth 8] ++ be64Bytes m.len) (65 + 4 * i.val) := by
      rw [show 97 + 4 * i.val = 32 + (65 + 4 * i.val) by omega, wordAt_serialize_past_h, List.append_assoc,
        List.singleton_append]
    _ = wordAt (be64Bytes m.len) (4 * i.val) := by rw [← hlength, wordAt_append_right]
    _ = _ := by rw [be64Bytes_eq_flatMap, ← List.append_nil (List.flatMap _ _), wordAt_flatMap_wordBytes]

theorem serialize_getD_buflen : m.serialize.getD 96 0 = m.buflen.setWidth 8 := by
  have hindex : 96 - (m.h.toList.flatMap wordBytes).length - (m.bufw.toList.flatMap wordBytes).length = 0 := by simp
  rw [serialize_eq, List.getD_append_right _ _ _ _ (by simp), List.getD_append_right _ _ _ _ (by simp), hindex,
    List.getD_cons_zero]

/-- The count of the buffer fits its byte. -/
theorem buflen_setWidth : (m.buflen.setWidth 8).setWidth 6 = m.buflen ∧ (m.buflen.setWidth 8).toNat < 64 := by
  have hfits : (m.buflen.setWidth 8).toNat = m.buflen.toNat := BitVec.toNat_setWidth_of_le (by decide)
  refine ⟨BitVec.eq_of_toNat_eq ?_, hfits ▸ m.buflen.isLt⟩
  rw [BitVec.toNat_setWidth, hfits]
  exact Nat.mod_eq_of_lt m.buflen.isLt

theorem deserialize_serialize : deserialize m.serialize = some m := by
  obtain ⟨hback, hlt⟩ := m.buflen_setWidth
  have hh : (Vector.ofFn fun i : Fin 8 => wordAt m.serialize (4 * i.val)) = m.h := by
    simp only [wordAt_serialize_h, Fin.getElem_fin, Vector.ofFn_getElem]
  have hbufw : (Vector.ofFn fun j : Fin 16 => wordAt m.serialize (32 + 4 * j.val)) = m.bufw := by
    simp only [wordAt_serialize_bufw, Fin.getElem_fin, Vector.ofFn_getElem]
  have hhi : wordAt m.serialize 97 = lenHi m.len := m.wordAt_serialize_len 0
  have hlo : wordAt m.serialize 101 = lenLo m.len := m.wordAt_serialize_len 1
  rw [deserialize, serialize_getD_buflen, if_pos ⟨m.serialize_length, hlt⟩, hh, hbufw, hback, hhi, hlo,
    lenHi_append_lenLo]

end MidstateRead

end Sys2Proof.Machine

namespace Sys2Proof

open Machine

/-- Settles O57: each part is read back from its place. -/
theorem serializedMidstateRoundTrips : Obligations.SerializedMidstateRoundTrips :=
  fun m => ⟨m.serialize_length, m.deserialize_serialize⟩

end Sys2Proof
end

section
/-! PROOF. The midstate round trip (spec/42_midstate.md R109): what SAVE reads is what RESTORE loads, and two engines of
the same context answer later UPDATEs and FINALIZE alike. -/

namespace Sys2Proof.Machine

/-! ### The read-back (42_midstate.md R101) -/

theorem regRead_h (i : Fin 8) (s : State) : regRead (wordOffset 0x020 i.val) 4 s = s.h[i] := by
  have hoff : (wordOffset 0x020 i.val).val = (Reg.h i).offset := by
    simp [wordOffset, Reg.offset]
    omega
  exact regRead_reg (by simp [hoff, Reg.offset]) hoff s

theorem regRead_buf (j : Fin 16) (s : State) : regRead (wordOffset 0x040 j.val) 4 s = bufWord s.buf j := by
  have hoff : (wordOffset 0x040 j.val).val = (Reg.buf j).offset := by
    simp [wordOffset, Reg.offset]
    omega
  exact regRead_reg (by simp [hoff, Reg.offset]) hoff s

theorem readMidstate_h (s : State) : (readMidstate s).h = s.h := by
  simp only [readMidstate, regRead_h, Fin.getElem_fin, Vector.ofFn_getElem]

theorem readMidstate_bufw (s : State) (j : Fin 16) : (readMidstate s).bufw[j] = bufWord s.buf j := by
  simp only [readMidstate, regRead_buf, Fin.getElem_fin, Vector.getElem_ofFn]

theorem readMidstate_len (s : State) : (readMidstate s).len = s.len := by
  have hhi : regRead 0x010 4 s = lenHi s.len := regRead_reg (r := .lenHi) rfl rfl s
  have hlo : regRead 0x00C 4 s = lenLo s.len := regRead_reg (r := .lenLo) rfl rfl s
  rw [readMidstate, hhi, hlo, lenHi_append_lenLo]

/-- Byte `4j + k` of the buffer is byte `k` of its word `j` (10_state.md R20). -/
theorem getElem_eq_bufWord_byte (b : Block) (i : Fin 64) :
    (wordBytes (bufWord b ⟨i.val / 4, by omega⟩))[i.val % 4]? = some b[i] := by
  have hi : 4 * (i.val / 4) + i.val % 4 = i.val := Nat.div_add_mod _ _
  have hlt : i.val % 4 < 4 := Nat.mod_lt _ (by decide)
  rw [bufWord, wordBytes_be32]
  generalize i.val % 4 = k at hi hlt
  interval_cases k <;> exact congrArg some (getElem_congr_idx hi)

/-- The sixteen words determine the buffer. -/
theorem block_ext_bufWord {b c : Block} (h : ∀ j : Fin 16, bufWord b j = bufWord c j) : b = c := by
  apply Vector.ext
  intro i hi
  have hbyte := getElem_eq_bufWord_byte b ⟨i, hi⟩
  rw [h, getElem_eq_bufWord_byte c ⟨i, hi⟩] at hbyte
  exact (Option.some.inj hbyte).symm

/-- Zeroing the tail of a buffer that has a zero tail changes nothing (10_state.md R29 (b)). -/
theorem zeroFrom_of_tail {n : Nat} {b : Block} (h : ∀ j : Fin 64, n ≤ j.val → b[j] = 0) : zeroFrom n b = b := by
  apply Vector.ext
  intro j hj
  rw [zeroFrom_eq, Vector.getElem_ofFn]
  split
  · next hn => exact (h ⟨j, hj⟩ hn).symm
  · rfl

/-- A Ready state's midstate, restored into a Finalized engine: its context, with nothing rejected (42_midstate.md
R109). -/
theorem runTxns_restore_readMidstate {e1 e2 : State} (hi : Inv e1) (hr1 : e1.ready = true) (hr2 : e2.ready = false) :
    ∃ din, runTxns (readMidstate e1).restore e2 = .next { e2 with
      h := e1.h, buf := e1.buf, buflen := e1.buflen, len := e1.len, ready := true, dvalid := false, din := din } := by
  have hl : (lenHi e1.len ++ lenLo e1.len : Counter).toNat ≤ Config.lenMax := by
    rw [lenHi_append_lenLo]
    exact hi.len_of_ready hr1
  obtain ⟨buf, hwords, hrun⟩ := runTxns_restore hr2 e1.h (readMidstate e1).bufw hl
  have hbuf : buf = e1.buf := block_ext_bufWord fun j => (hwords j).trans (readMidstate_bufw e1 j)
  have hbuflen := hi.buflen_of_ready hr1
  have hcount : e1.len.setWidth 6 = e1.buflen := by
    rw [setWidth_six_eq_ofNat, ← hbuflen, BitVec.ofNat_toNat, BitVec.setWidth_eq]
  have htail := zeroFrom_of_tail (hi.buf_of_ready hr1)
  rw [lenHi_append_lenLo, hbuf, ← hbuflen, htail, hcount] at hrun
  exact ⟨_, by rw [MidstateRead.restore, readMidstate_h, readMidstate_len, hrun]⟩

/-! ### The same later commands (42_midstate.md R109) -/

/-- A command mnemonic runs its command: the word of an ill-formed UPDATE is rejected as the term is (log 14). -/
theorem runTxn_cmd_eq_exec (i : Instr) (s : State) : runTxn (cmd i) s = exec i s := by
  by_cases hwf : i.wf = true
  · exact runTxn_cmd ((decode_encode i).trans (if_pos hwf)) s
  · cases i with
    | update nb =>
      have hgt : nb.toNat > 4 := by simpa [Instr.wf] using hwf
      have hword : runTxn (cmd (.update nb)) s = .next (raiseError .illegalCmd s) :=
        (regWrite_zero rfl _ s).trans (executeCommand_none ((decode_encode _).trans (if_neg hwf)) s)
      exact hword.trans (exec_of_first_check (by rw [checks, decide_eq_true hgt])).symm
    | _ => exact absurd rfl hwf

theorem runTxns_cmd {i : Instr} {s u : State} (h : exec i s = .next u) : runTxns [cmd i] s = .next u :=
  runTxns_cons_next ((runTxn_cmd_eq_exec i s).trans h)

/-- A word is written to `DIN`, and a command runs, accepted or rejected. -/
theorem runTxns_wdin_cmd {i : Instr} {v : Word} {s u : State} (h : exec i { s with din := v } = .next u) :
    runTxns [wdin v, cmd i] s = .next u :=
  (runTxns_cons_next (runTxn_wdin v s)).trans (runTxns_cmd h)

/-- The elements that make a context agree; the error fields, `DIN` and the model's own fields may differ. -/
structure SameContext (s t : State) : Prop where
  h : s.h = t.h
  buf : s.buf = t.buf
  buflen : s.buflen = t.buflen
  len : s.len = t.len
  ready : s.ready = t.ready
  dvalid : s.dvalid = t.dvalid

namespace SameContext

variable {s t : State}

theorem raiseError (hs : SameContext s t) (code : ErrCode) :
    SameContext (raiseError code s) (raiseError code t) := { hs with }

theorem withDin (hs : SameContext s t) (v w : Word) : SameContext { s with din := v } { t with din := w } :=
  { hs with }

theorem withLen (hs : SameContext s t) (len : Counter) : SameContext { s with len := len } { t with len := len } :=
  { hs with len := rfl }

theorem withFlags (hs : SameContext s t) (ready dvalid : Bool) :
    SameContext { s with ready := ready, dvalid := dvalid } { t with ready := ready, dvalid := dvalid } :=
  { hs with ready := rfl, dvalid := rfl }

theorem absorb (hs : SameContext s t) (x : Byte) : SameContext (absorb x s) (absorb x t) := by
  have hfilled : s.buf.set s.buflen.toNat x = t.buf.set t.buflen.toNat x := by simp only [hs.buf, hs.buflen]
  by_cases hfull : s.buflen.toNat + 1 = 64
  · rw [absorb_of_full x s hfull, absorb_of_full x t (hs.buflen ▸ hfull), hfilled]
    exact { hs with h := congrArg (compress · _) hs.h, buf := rfl, buflen := rfl }
  · have hlt : s.buflen.toNat + 1 < 64 := by omega
    rw [absorb_of_lt x s hlt, absorb_of_lt x t (hs.buflen ▸ hlt), hfilled]
    exact { hs with buf := rfl, buflen := congrArg (· + 1) hs.buflen }

theorem absorbAll (hs : SameContext s t) (xs : List Byte) : SameContext (absorbAll xs s) (absorbAll xs t) := by
  induction xs generalizing s t with
  | nil => exact hs
  | cons x xs ih => exact ih (hs.absorb x)

/-- The padding depends on `BUFLEN` and `LEN` alone. -/
theorem absorbPadding (hs : SameContext s t) : SameContext (absorbPadding s) (absorbPadding t) := by
  rw [absorbPadding_eq s, absorbPadding_eq t, (hs.absorb 0x80).buflen, hs.len]
  exact hs.absorbAll _

theorem effect_update (hs : SameContext s t) (hdin : s.din = t.din) (nb : BitVec 3) :
    SameContext (effect (.update nb) s) (effect (.update nb) t) := by
  rw [effect, effect, hdin, hs.len]
  exact (hs.absorbAll _).withLen _

theorem effect_finalize (hs : SameContext s t) : SameContext (effect .finalize s) (effect .finalize t) := by
  rw [effect, effect]
  exact hs.absorbPadding.withFlags false true

/-- The checks of a command see the context alone. -/
theorem checks_eq (hs : SameContext s t) (i : Instr) : checks i s = checks i t := by
  cases i <;> simp only [checks, hs.ready, hs.len]

/-- A command whose effects agree leaves the same context, accepted or rejected. -/
theorem exec {i : Instr} (hs : SameContext s t) (heff : SameContext (effect i s) (effect i t)) :
    ∃ u v, exec i s = .next u ∧ exec i t = .next v ∧ SameContext u v := by
  rw [exec_eq_guarded, exec_eq_guarded, hs.checks_eq i]
  induction checks i t with
  | nil => exact ⟨_, _, rfl, rfl, heff⟩
  | cons c cs ih =>
    obtain ⟨failed, code⟩ := c
    cases failed with
    | true => exact ⟨_, _, rfl, rfl, hs.raiseError code⟩
    | false => exact ih

/-- UPDATE of the same word, of any count, accepted or rejected. -/
theorem runTxns_update (hs : SameContext s t) (c : Word × BitVec 3) :
    ∃ u v, runTxns [wdin c.1, cmd (.update c.2)] s = .next u ∧ runTxns [wdin c.1, cmd (.update c.2)] t = .next v ∧
      SameContext u v := by
  have hdin := hs.withDin c.1 c.1
  obtain ⟨u, v, hu, hv, huv⟩ := hdin.exec (hdin.effect_update rfl c.2)
  exact ⟨u, v, runTxns_wdin_cmd hu, runTxns_wdin_cmd hv, huv⟩

theorem runTxns_finalize (hs : SameContext s t) :
    ∃ u v, runTxns [cmd .finalize] s = .next u ∧ runTxns [cmd .finalize] t = .next v ∧ SameContext u v := by
  obtain ⟨u, v, hu, hv, huv⟩ := hs.exec hs.effect_finalize
  exact ⟨u, v, runTxns_cmd hu, runTxns_cmd hv, huv⟩

/-- Any UPDATEs and a FINALIZE leave the same context. -/
theorem runTxns_updates_finalize (hs : SameContext s t) (cs : List (Word × BitVec 3)) : ∃ u v,
    runTxns ((cs.flatMap fun c => [wdin c.1, cmd (.update c.2)]) ++ [cmd .finalize]) s = .next u ∧
    runTxns ((cs.flatMap fun c => [wdin c.1, cmd (.update c.2)]) ++ [cmd .finalize]) t = .next v ∧
    SameContext u v := by
  induction cs generalizing s t with
  | nil => exact hs.runTxns_finalize
  | cons c cs ih =>
    obtain ⟨s', t', hs', ht', hst⟩ := hs.runTxns_update c
    rw [List.flatMap_cons, List.append_assoc, runTxns_append hs', runTxns_append ht']
    exact ih hst

end SameContext

end Sys2Proof.Machine

namespace Sys2Proof

open Machine

/-- Settles O56: RESTORE leaves the context of the saved engine, and the later commands keep the two contexts the
same, rejected ones included. -/
theorem midstateRoundTrip : Obligations.MidstateRoundTrip := by
  intro e1 e2 hi hr1 hr2
  obtain ⟨din, hrun⟩ := runTxns_restore_readMidstate hi hr1 hr2
  refine ⟨_, hrun, rfl, rfl, rfl, rfl, rfl, rfl, rfl, fun cs => ?_⟩
  have hsame : SameContext e1 { e2 with
      h := e1.h, buf := e1.buf, buflen := e1.buflen, len := e1.len, ready := true, dvalid := false, din := din } :=
    ⟨rfl, rfl, rfl, rfl, hr1, dvalid_of_ready hi hr1⟩
  obtain ⟨u1, u2, hu1, hu2, hu⟩ := hsame.runTxns_updates_finalize cs
  exact ⟨u1, u2, hu1, hu2, hu.h, hu.dvalid, hu.len⟩

end Sys2Proof
end

section
/-! PROOF. The control command CLRERR (spec/43_control.md R110). -/

namespace Sys2Proof.Machine

/-- CLRERR has no check to fail, so it is accepted whatever `READY` and `ERR` are. -/
theorem exec_clrerr (s : State) : exec .clrerr s = .next (clearError s) :=
  exec_of_checks (by simp [checks])

/-- With `ERR = 0` the invariant gives `ERRCODE` NONE (10_state.md R24), so nothing is left to clear. -/
theorem clearError_of_err_false {s : State} (hi : Inv s) (herr : s.err = false) : clearError s = s := by
  have hcode : s.errcode = .none := hi.errcode_none.mpr herr
  rw [clearError, ← herr, ← hcode]

/-- A rejection sets `ERR`, and the effect of every other command keeps it. -/
theorem eq_clrerr_of_exec_clears_err {i : Instr} {s t : State} (h : exec i s = .next t) (herr : s.err = true)
    (hclear : t.err = false) : i = .clrerr := by
  by_contra hi
  obtain ⟨-, rfl⟩ | ⟨code, -, rfl⟩ := exec_result h
  · obtain ⟨hkept, -⟩ := effect_err_errcode hi s
    simp [hkept, herr] at hclear
  · simp at hclear

end Sys2Proof.Machine

namespace Sys2Proof

open Machine

theorem decode_eq_clrerr_iff {c : Word} : decode c = some .clrerr ↔ c = 0x04000000 where
  mp := eq_clrerr_word
  mpr := by
    rintro rfl
    exact decode_encode .clrerr

/-- Settles O34: CLRERR has no check, the invariant ties `ERRCODE` to `ERR`, and no other command and no rejection
clears a set `ERR`. -/
theorem clrerrClearsTheError : Obligations.ClrerrClearsTheError := by
  refine ⟨fun c => decode_eq_clrerr_iff, fun s => ⟨exec_clrerr s, fun hi herr => ?_⟩,
    fun i s t h herr hclear => eq_clrerr_of_exec_clears_err h herr hclear⟩
  rw [exec_clrerr, clearError_of_err_false hi herr]

end Sys2Proof
end

section
/-! PROOF. The exceptions: the words that need the midstate extension, what a rejection changes, which check names
the error, and that a recorded error blocks nothing (spec/60_exceptions.md R113 to R118). -/

namespace Sys2Proof

/-! ### The midstate extension (60_exceptions.md R114) -/

/-- A row that decodes without the midstate extension decodes the same with it. -/
theorem opcodeMap_true_of_false {opc : BitVec 8} {opd : BitVec 6} {i : Instr}
    (h : opcodeMap false opc opd = some i) : opcodeMap true opc opd = some i := by
  unfold opcodeMap at h ⊢
  split at h
  case h_1 | h_2 | h_3 | h_4 => exact h
  case h_5 | h_6 | h_7 | h_8 | h_9 | h_10 => cases h

/-- A word that is illegal with the midstate extension is illegal without it. -/
theorem decodeWith_false_eq_none {c : Word} (h : decodeWith true c = none) : decodeWith false c = none := by
  by_cases hres : reservedField c = 0
  · rw [decodeWith, if_pos hres] at h ⊢
    refine Option.eq_none_iff_forall_ne_some.mpr fun i hi => ?_
    simp [opcodeMap_true_of_false hi] at h
  · exact decodeWith_of_reserved hres false

end Sys2Proof

namespace Sys2Proof.Machine

/-! ### FINALIZE while Finalized (60_exceptions.md R115) -/

theorem exec_finalize_notReady {s : State} (hr : s.ready = false) :
    exec .finalize s = .next (raiseError .notReady s) :=
  exec_of_first_check (rest := []) (by rw [checks, hr, Bool.not_false])

/-! ### Two runs that differ in `ERR` and `ERRCODE` (60_exceptions.md R115) -/

/-- States of one context that agree in `DIN` and the model's own fields differ in `ERR` and `ERRCODE` only. -/
theorem SameContext.eq_withError {s t : State} (hs : SameContext s t) (hdin : s.din = t.din)
    (hpending : s.pending = t.pending) (hreads : s.reads = t.reads) (hever : s.everRejected = t.everRejected) :
    t = { s with err := t.err, errcode := t.errcode } := by
  obtain ⟨hh, hbuf, hbuflen, hlen, hready, hdvalid⟩ := hs
  simp only [hh, hbuf, hbuflen, hlen, hready, hdvalid, hdin, hpending, hreads, hever]

section TwoRuns

variable (i : Instr) (s : State) (e : Bool) (code : ErrCode)

/-- `ERR` and `ERRCODE` are no part of the context. -/
theorem sameContext_withError : SameContext s { s with err := e, errcode := code } :=
  ⟨rfl, rfl, rfl, rfl, rfl, rfl⟩

/-- No effect of a command puts `ERR` or `ERRCODE` into the context. -/
theorem sameContext_effect_withError :
    SameContext (effect i s) (effect i { s with err := e, errcode := code }) := by
  have hs := sameContext_withError s e code
  cases i with
  | update nb => exact hs.effect_update rfl nb
  | finalize => exact hs.effect_finalize
  | _ => exact ⟨rfl, rfl, rfl, rfl, rfl, rfl⟩

theorem effect_withError : ∃ e' code',
    effect i { s with err := e, errcode := code } = { effect i s with err := e', errcode := code' } :=
  ⟨_, _, (sameContext_effect_withError i s e code).eq_withError (by simp only [effect_din])
    (by simp only [effect_pending]) (by simp only [effect_reads]) (by simp only [effect_everRejected])⟩

/-- The same check fails, or none does, and the outcomes differ in `ERR` and `ERRCODE` only. -/
theorem guarded_withError (cs : List (Bool × ErrCode)) : ∃ t e' code',
    guarded cs (effect i) s = .next t ∧
      guarded cs (effect i) { s with err := e, errcode := code } = .next { t with err := e', errcode := code' } := by
  induction cs with
  | nil =>
    obtain ⟨e', code', heff⟩ := effect_withError i s e code
    exact ⟨_, e', code', rfl, congrArg _ heff⟩
  | cons c cs ih =>
    obtain ⟨failed, cause⟩ := c
    cases failed with
    | true => exact ⟨raiseError cause s, true, if e then code else cause, rfl, rfl⟩
    | false => exact ih

end TwoRuns

end Sys2Proof.Machine

namespace Sys2Proof

open Machine

/-- Settles O5: a legal word is the word of its command, whose opcode fixes the row; an illegal word stays illegal. -/
theorem midstateWordsNeedTheExtension : Obligations.MidstateWordsNeedTheExtension := by
  refine fun c => ⟨?_, rfl⟩
  cases hdec : decodeWith true c with
  | none => exact decodeWith_false_eq_none hdec
  | some i =>
    obtain rfl : encode i = c := encode_of_decode hdec
    cases i with
    | update | finalize | reinit | clrerr =>
      exact (decodeWith_commandWord false _ _).trans ((decodeWith_commandWord true _ _).symm.trans hdec)
    | ldh | ldbuf | ldlenlo | ldlenhi | resume => exact decodeWith_commandWord false _ _

/-- Settles O19: the first code is kept by the test of `ERR`. -/
theorem raisedErrorKeepsTheFirstCode : Obligations.RaisedErrorKeepsTheFirstCode := by
  intro code s
  exact ⟨fun herr => by simp [herr], fun herr => by simp [herr], rfl, rfl⟩

/-- Settles O20: of the effects of a transaction only a rejection raises the ghost flag. -/
theorem rejectionIsPrecise : Obligations.RejectionIsPrecise := by
  intro x s t hclear h hraised
  cases runTxn_effect h with
  | rejected off size v hcode => exact ⟨_, hcode, rfl⟩
  | accepted => simp [effect_everRejected, hclear] at hraised
  | read | reset | din => simp [hclear] at hraised

/-- Settles O21: the check of `READY` fails in the listed states; in the others every check passes, and no effect
but that of CLRERR touches the error. -/
theorem misuseTable : Obligations.MisuseTable := by
  intro s
  refine ⟨fun hr => ⟨fun nb hnb => exec_update_notReady hnb hr, exec_finalize_notReady hr⟩,
    fun hr => ⟨exec_stillReady rfl hr, fun i => exec_stillReady rfl hr, fun j => exec_stillReady rfl hr,
      exec_stillReady rfl hr, exec_stillReady rfl hr, exec_stillReady rfl hr⟩, fun i hwf hstate => ?_⟩
  have haccepted : exec i s = .next (effect i s) := by
    cases i with
    | update nb =>
      obtain ⟨hr, hl⟩ := hstate
      exact exec_update_accepted (of_decide_eq_true hwf) hr hl
    | finalize => exact exec_finalize_accepted hstate
    | clrerr => exact exec_clrerr s
    | resume =>
      obtain ⟨hr, hl⟩ := hstate
      exact exec_resume_accepted hr hl
    | reinit | ldh | ldbuf | ldlenlo | ldlenhi => exact exec_accepted_of_finalized rfl hstate
  exact ⟨_, haccepted, effect_everRejected i s, fun hi => effect_err_errcode hi s⟩

/-- Settles O22: the form is checked before the word is decoded, the word before the checks of its command, and
those in their order. -/
theorem checksAreOrdered : Obligations.ChecksAreOrdered := by
  refine ⟨?form, ?word, fun s nb hnb hr => ?_, fun s hr => ?_, fun s nb hnb hr hover => ?_, fun s hr hover => ?_⟩
  case form => exact fun s off size c hbad => regWrite_badAccess (hbad.imp_right .inl) c s
  case word => exact fun s c hnone => (regWrite_zero rfl c s).trans (executeCommand_none hnone s)
  all_goals rw [runTxn_cmd_eq_exec]
  · exact exec_update_notReady hnb hr
  · exact exec_stillReady rfl hr
  · exact exec_update_lenOvf hnb hr hover
  · exact exec_resume_lenOvf hr hover

/-- Settles O24: the checks give the same answers, and what follows keeps the difference to `ERR` and `ERRCODE`. -/
theorem errBlocksNothing : Obligations.ErrBlocksNothing := by
  intro i s e code
  rw [exec_eq_guarded, exec_eq_guarded, ← (sameContext_withError s e code).checks_eq i]
  exact guarded_withError i s e code (checks i s)

end Sys2Proof
end

section
/-! PROOF. Reset and the idle step: the registers after a reset, and that a reset leaves nothing of what was before it
(spec/70_reset_and_hazards.md R129, R131, R138). -/

namespace Sys2Proof.Machine

/-- The words of a cleared buffer are 0 (10_state.md R19, R20). -/
theorem bufWord_zeroBlock (j : Fin 16) : bufWord zeroBlock j = 0 := by
  have hbyte (k : Nat) (hk : k < 64) : zeroBlock[k] = 0 := zeroBlock_getElem ⟨k, hk⟩
  rw [bufWord, hbyte, hbyte, hbyte, hbyte]
  rfl

/-- After a reset `STATUS` shows `READY` alone (70_reset_and_hazards.md R129). -/
theorem statusWord_platformReset (s : State) : statusWord (platformReset s) = 1 :=
  BitVec.eq_of_toNat_eq (statusWord_toNat (platformReset s))

/-- No element of R17 depends on the state before the reset. -/
theorem sameEngine_platformReset (s t : State) : SameEngine (platformReset s) (platformReset t) :=
  ⟨rfl, rfl, rfl, rfl, rfl, rfl, rfl, rfl, rfl⟩

theorem platformReset_reset : platformReset State.reset = State.reset := rfl

theorem runTxns_reset (s : State) : runTxns [.reset] s = .next (platformReset s) :=
  runTxns_cons_next rfl

/-- A transaction answers a next state, which the reset after it replaces (20_memory.md R41). -/
theorem runTxns_txn_reset (x : Txn) (s : State) : ∃ r, runTxns [x, .reset] s = .next (platformReset r) := by
  obtain ⟨r, hr⟩ := runTxn_next x s
  exact ⟨r, (runTxns_cons_next hr).trans (runTxns_reset r)⟩

end Sys2Proof.Machine

namespace Sys2Proof

open Machine

/-- Settles O17: the elements are those of `platformReset`, and each read is the register's value there. -/
theorem resetSetsEveryElement : Obligations.ResetSetsEveryElement := by
  intro s rest hp
  refine ⟨platformReset { s with pending := rest }, step_cons hp, platformReset_h _, zeroBlock_getElem,
    platformReset_buflen _, platformReset_len _, platformReset_ready _, platformReset_dvalid _, platformReset_err _,
    platformReset_errcode _, platformReset_din _, ?status, ?lenLo, ?lenHi, ?din, fun i => ⟨regRead_h i _, ?digest⟩,
    fun j => ?buf⟩
  case status => exact (regRead_reg (r := .status) rfl rfl _).trans (statusWord_platformReset _)
  case lenLo => exact (regRead_reg (off := 0x00C) (r := .lenLo) rfl rfl _).trans (show lenLo 0 = 0 by decide)
  case lenHi => exact (regRead_reg (off := 0x010) (r := .lenHi) rfl rfl _).trans (show lenHi 0 = 0 by decide)
  case din => exact regRead_reg (r := .din) rfl rfl _
  case digest => exact regRead_digest i _
  case buf => exact (regRead_buf j _).trans (bufWord_zeroBlock j)

/-- Settles O18: both runs end in a reset, and no element shows which state it came from. -/
theorem resetAbandonsTheCommand : Obligations.ResetAbandonsTheCommand := by
  intro c s
  obtain ⟨r, hr⟩ := runTxns_txn_reset (.write 0x000 4 c) s
  exact ⟨_, _, hr, runTxns_reset s, sameEngine_platformReset r s,
    platformReset_reset ▸ sameEngine_platformReset s State.reset, platformReset_pending s, platformReset_reads s,
    platformReset_everRejected s⟩

/-- Settles O8: the empty queue is the first case of the step. -/
theorem idleStepChangesNothing : Obligations.IdleStepChangesNothing := fun _ => step_nil

end Sys2Proof
end

section
/-! PROOF. The ghost flag: only a rejection raises `ERR`, it raises the flag with it, and nothing clears the flag
(spec/60_exceptions.md R113, section 6). -/

namespace Sys2Proof.Machine

/-- No accepted command raises `ERR`: CLRERR clears it (43_control.md R110), the others keep it. -/
theorem err_of_effect_err {i : Instr} {s : State} (h : (effect i s).err = true) : s.err = true := by
  by_cases hi : i = .clrerr
  · subst hi
    cases h
  · exact (effect_err_errcode hi s).1.symm.trans h

/-- A transaction keeps the ghost flag and raises no error, or it is rejected and raises the flag. -/
theorem TxnEffect.everRejected_cases {s t : State} {x : Txn} (h : TxnEffect s x t) :
    (t.everRejected = s.everRejected ∧ (t.err = true → s.err = true)) ∨ t.everRejected = true := by
  cases h with
  | read off size => exact .inl ⟨rfl, id⟩
  | reset => exact .inl ⟨rfl, fun herr => by cases herr⟩
  | @accepted c i hdec hchk => exact .inl ⟨effect_everRejected i s, err_of_effect_err⟩
  | din v => exact .inl ⟨rfl, id⟩
  | rejected off size v hcode => exact .inr rfl

end Sys2Proof.Machine

namespace Sys2Proof

open Machine

/-- Settles O26: a transaction that is not rejected keeps the flag and raises no error. -/
theorem ghostFlagNeverClears : Obligations.GhostFlagNeverClears := by
  intro s t h
  obtain ⟨-, rfl⟩ | ⟨x, rest, -, heff⟩ := step_effect h
  · exact ⟨id, fun hclear hraised => absurd hraised (by simp [hclear])⟩
  obtain ⟨hkept, herr⟩ | hraised := heff.everRejected_cases
  · exact ⟨fun hset => hkept.trans hset, fun hclear ht => absurd (herr ht) (by simp [hclear])⟩
  · exact ⟨fun _ => hraised, fun _ _ => hraised⟩

end Sys2Proof
end
